-- ==== Sys2Proof/Word.lean ====
section
/-! DEFINITION. The word type of the Bloomlang engine (spec 00_scope.md R5, R8): registers, cells and
output values are 8-bit unsigned words. -/

namespace Sys2Proof

/-- An 8-bit unsigned value: a register (10_state.md R10, R11), a cell of instruction memory
(20_memory.md R32) or the value of an output event (42_io.md R90). `XLEN` is fixed at 8 (00_scope.md R5). -/
abbrev Byte := BitVec 8

end Sys2Proof
end

