-- ==== Sys2Proof/Config.lean ====
section
/-! DEFINITION. What an implementation fixes (`Params`) and what the host leaves free (`Config.hostDraw`,
`Config.parseLine`, `Config.cancelConsumes`). The free values are opaque constants: nothing in Lean can evaluate one, so a theorem
holds whatever they are. -/

namespace Sys2Proof

/-- The open parameters of 00_scope.md R5 and 92_eei_decisions.md section 6; `none` is "unbounded".
The model carries them as plain data in `State`, so a statement about every state holds for every
choice of them. DESIGN CHOICE, log 1. -/
structure Params where
  /-- `PC_WIDTH`: bits of `PC` and of a loop-stack entry. -/
  pcWidth : Option Nat
  /-- `IMEM_SIZE`: cells of instruction memory. -/
  imemSize : Option Nat
  /-- `LS_DEPTH`: capacity of the loop stack in entries. -/
  lsDepth : Option Nat
deriving DecidableEq, Repr

/-- "value for a model that follows BL exactly" (00_scope.md R5): every parameter unbounded. -/
def Params.exactBL : Params := { pcWidth := none, imemSize := none, lsDepth := none }

/-- The host's answer to an input request (42_io.md R95): `Value(i)` with `i` any integer, or `Failure`. -/
inductive Answer where
  | value (i : Int)
  | failure
deriving DecidableEq, Repr, Inhabited

/-- FREE VALUE. What the host does with an open input request at the `k`-th draw: it answers `a` (`some a`)
or it has not answered yet (`none`). "The answer is a draw: no rule constrains it" (42_io.md R95, U7), and
the host may never answer (R98, U8). DESIGN CHOICE, log 4. -/
opaque Config.hostDraw : Nat → Option Answer

/-- FREE VALUE. `parse_line` on a line of text (00_scope.md R5, 42_io.md R95): which lines are base-10
integers is not given (91_not_in_source.md N7). DESIGN CHOICE, log 6. -/
opaque Config.parseLine : List Char → Answer

/-- FREE VALUE. Whether a `.` cancelled while it waits, at the `k`-th draw, takes with it the answer the host
has placed next. The spec leaves it open: "Do not assume: that a cancelled `.` leaves the host's input stream
untouched or consumed" (91_not_in_source.md N16). DESIGN CHOICE, log 11. -/
opaque Config.cancelConsumes : Nat → Bool

end Sys2Proof
end

