-- ==== Sys2Proof/Syntax.lean ====
section
/-! DEFINITION. The instructions of the Bloomlang engine: the 17 rows of spec/opcode_table.json
(30_encoding.md R52), in the table's order. No instruction has an operand field (R51). -/

namespace Sys2Proof

/-- One constructor per row of the opcode map (30_encoding.md R52). -/
inductive Instr where
  /-- `^` increment (40_alu.md R71). -/
  | inc
  /-- backtick, decrement (40_alu.md R72). -/
  | dec
  /-- `!` zero-accumulator (40_alu.md R73). -/
  | zero
  /-- `+` add (40_alu.md R74). -/
  | add
  /-- `-` subtract (40_alu.md R75). -/
  | sub
  /-- `*` multiply (40_alu.md R76). -/
  | mul
  /-- `/` floor-divide (40_alu.md R77). -/
  | div
  /-- `%` modulo (40_alu.md R78). -/
  | mod
  /-- `=` store-to-buffer (41_moves.md R85). -/
  | stb
  /-- `~` load-from-buffer (41_moves.md R86). -/
  | ldb
  /-- `#` print-decimal (42_io.md R92). -/
  | prd
  /-- `@` print-ascii (42_io.md R93). -/
  | pra
  /-- `.` read-input (42_io.md R96). -/
  | inp
  /-- left brace, loop-open (43_control.md R104). -/
  | lopen
  /-- right brace, loop-close (43_control.md R106). -/
  | lclose
  /-- vertical bar, halt (43_control.md R103). -/
  | halt
  /-- `$` debug-print-buffer (42_io.md R94). -/
  | dbg
deriving DecidableEq, Repr

end Sys2Proof
end

