-- ==== Sys2Proof/WellFormed.lean ====
section
/-! DEFINITION. Well-formedness. An instruction has no field, so each one is well-formed (30_encoding.md
R51); what the spec checks is the program (the bracket totals, R59) and the parameters (00_scope.md R5). -/

namespace Sys2Proof

/-- Every instruction is well-formed: there is no operand, register, immediate or mode field that could
hold a bad value (30_encoding.md R50, R51). One line per constructor, so that a new one must be decided. -/
def Instr.wellFormed : Instr → Bool
  | .inc => true
  | .dec => true
  | .zero => true
  | .add => true
  | .sub => true
  | .mul => true
  | .div => true
  | .mod => true
  | .stb => true
  | .ldb => true
  | .prd => true
  | .pra => true
  | .inp => true
  | .lopen => true
  | .lclose => true
  | .halt => true
  | .dbg => true

/-- A program the Sanitizer may hand to the engine: its totals of loop-open and loop-close agree
(30_encoding.md R59, R61, R64(b)). Nesting is not checked (R63). -/
def balanced (p : List Instr) : Bool :=
  p.count .lopen == p.count .lclose

/-- `PC_WIDTH >= 1`, and `IMEM_SIZE <= 2^PC_WIDTH - 1` so that the value `n` is representable (00_scope.md R5). -/
def Params.pcWf (p : Params) : Bool :=
  match p.pcWidth, p.imemSize with
  | none, _ => true
  | some w, some m => decide (1 ≤ w) && decide (m < 2 ^ w)
  | some _, none => false

/-- `LS_DEPTH` is "a positive integer or unbounded" (92_eei_decisions.md D5 and section 6; log 1). -/
def Params.lsDepthWf (p : Params) : Bool :=
  match p.lsDepth with
  | none => true
  | some d => decide (1 ≤ d)

/-- The constraints on the open parameters: 00_scope.md R5 with its decisions D5 and D6. -/
def Params.wf (p : Params) : Bool := p.pcWf && p.lsDepthWf

end Sys2Proof
end

