-- ==== Sys2Proof/Decode.lean ====
section
/-! DEFINITION. Decoding of a cell (30_encoding.md R50 to R56), and after it the encoder, both from the
opcode map of R52. The codes are the ASCII codes the spec lists (93_implementation_defined.md G1). -/

namespace Sys2Proof

/-- A row of the opcode map: the cell matches when `cell &&& mask = code` (spec/opcode_table.json). -/
structure OpRow where
  code : Byte
  mask : Byte
  instr : Instr
deriving DecidableEq, Repr

/-- The opcode map (30_encoding.md R52): "all 8 bits compared, mask 0xFF" (R53). -/
def opcodeTable : List OpRow :=
  [ ⟨0x5E, 0xFF, .inc⟩, ⟨0x60, 0xFF, .dec⟩, ⟨0x21, 0xFF, .zero⟩, ⟨0x2B, 0xFF, .add⟩,
    ⟨0x2D, 0xFF, .sub⟩, ⟨0x2A, 0xFF, .mul⟩, ⟨0x2F, 0xFF, .div⟩, ⟨0x25, 0xFF, .mod⟩,
    ⟨0x3D, 0xFF, .stb⟩, ⟨0x7E, 0xFF, .ldb⟩, ⟨0x23, 0xFF, .prd⟩, ⟨0x40, 0xFF, .pra⟩,
    ⟨0x2E, 0xFF, .inp⟩, ⟨0x7B, 0xFF, .lopen⟩, ⟨0x7D, 0xFF, .lclose⟩, ⟨0x7C, 0xFF, .halt⟩,
    ⟨0x24, 0xFF, .dbg⟩ ]

/-- What a cell decodes to: one of the 17 opcodes, or `Invalid` (30_encoding.md R53). -/
inductive Decoded where
  /-- The row whose code equals the cell. -/
  | op (i : Instr)
  /-- No row matches: one of the 239 other cell values (R53, R55). -/
  | invalid
deriving DecidableEq, Repr

/-- `decode(b)` of 30_encoding.md R53: total, stateless, one cell. -/
def decodeCell (b : Byte) : Decoded :=
  match opcodeTable.find? (fun r => b &&& r.mask == r.code) with
  | some r => .op r.instr
  | none => .invalid

/-- The cell of an instruction (30_encoding.md R52, column "code"). -/
def encode : Instr → Byte
  | .inc => 0x5E
  | .dec => 0x60
  | .zero => 0x21
  | .add => 0x2B
  | .sub => 0x2D
  | .mul => 0x2A
  | .div => 0x2F
  | .mod => 0x25
  | .stb => 0x3D
  | .ldb => 0x7E
  | .prd => 0x23
  | .pra => 0x40
  | .inp => 0x2E
  | .lopen => 0x7B
  | .lclose => 0x7D
  | .halt => 0x7C
  | .dbg => 0x24

/-- The cell of loop-open, the one opcode the scan of 43_control.md R105 counts up. -/
def openCell : Byte := encode .lopen

/-- The cell of loop-close, the one opcode the scan of 43_control.md R105 counts down. -/
def closeCell : Byte := encode .lclose

/-- The first cell of an instruction given as the table numbers its bits: bit 0 is the least significant
bit of the first cell. Bits at or above `nbits` are 0, and an instruction is one cell (30_encoding.md R50). -/
def tableCell (nbits w : Nat) : Byte := BitVec.ofNat 8 (w % 2 ^ nbits)

/-- The instruction the decoder reads from the table's bits `w`. -/
def decodeTableWord (nbits w : Nat) : Option Instr :=
  match decodeCell (tableCell nbits w) with
  | .op i => some i
  | .invalid => none

end Sys2Proof
end

