-- ==== Sys2Proof/Machine/State.lean ====
section
/-! DEFINITION. The state of the Bloomlang engine (10_state.md R10 to R24), its fault and refusal reasons
as the host's interface asks for them, and the state after reset. Plain data throughout. -/

namespace Sys2Proof.Machine

/-- `STATUS`, the run status (10_state.md R17). -/
inductive Status where
  /-- Reset done, no run started. -/
  | idle
  /-- The dispatch loop is active. -/
  | running
  /-- A `.` has issued its request and the host has not answered. -/
  | waitInput
  /-- Terminal: `PC` ran past the end. -/
  | haltedEnd
  /-- Terminal: the halt instruction executed. -/
  | haltedExplicit
  /-- Terminal: a fault aborted the run; `CAUSE` says which. -/
  | faulted
  /-- Terminal: the host cancelled the run. -/
  | cancelled
  /-- Terminal: the validator refused the program. -/
  | rejected
deriving DecidableEq, Repr

/-- `CAUSE`, the fault cause: exactly the seven values 0 to 6 (60_exceptions.md R129, V1). -/
inductive Cause where
  | none
  | mismatchedBrackets
  | divisionByZero
  | loopStackUnderflow
  | loopStackOverflow
  | illegalOpcode
  | loopScanOverrun
deriving DecidableEq, Repr

/-- The kind of an output event (42_io.md R90). -/
inductive EventKind where
  /-- `DEC`: shown as a decimal numeral. -/
  | dec
  /-- `CHR`: shown as one character. -/
  | chr
deriving DecidableEq, Repr

/-- An output event `(kind, v)` (10_state.md R21, 42_io.md R90). -/
structure Event where
  kind : EventKind
  v : Byte
deriving DecidableEq, Repr

/-- Why the model's step stops with a fault of the host's interface. The spec's own faults are NOT here:
`raise` is a next state with `STATUS = Faulted` (60_exceptions.md R131). -/
inductive Fault where
  /-- A fetch or the scan of loop-open reads cell `a`, below the program length, that nothing has written
  (20_memory.md R33: a model gives `IMem` no value there). Raised by `step` and by loop-open. SAFE: the
  model stops where no loaded program can come (log 2). -/
  | cellUnwritten (a : Nat)
deriving DecidableEq, Repr

/-- Why the model gives no next state although no fault occurred. -/
inductive Refusal where
  /-- An instruction the model gives no meaning, by its mnemonic. No instruction of this model is left so. SAFE. -/
  | notModelled (mnemonic : String)
  /-- The loader refuses a program longer than `IMEM_SIZE` (70_reset_and_hazards.md R151 step 3, U6). Raised
  by the host's load. SAFE: the spec gives such a program no run. -/
  | programTooLong
  /-- A host action in a status R154 does not list for it (70_reset_and_hazards.md R154, U16). Raised by
  `hostStep`. SAFE: "the model gives these no step". -/
  | hostActionNotEnabled
deriving DecidableEq, Repr

/-- Instruction memory: the written cells, addresses strictly rising (20_memory.md R32). A cell not listed
holds no value (R33). -/
abbrev Memory := List Host.Cell

/-- All the state the spec gives the engine (10_state.md), with the fields the model adds named as such. The program
(`imem`, `progLen`) is state here, as in the table of R24 and in R151, where 20_memory.md R31 has a model take it as a
parameter of the step function. DESIGN CHOICE, log 12. -/
structure State where
  /-- `X`, the accumulator (R10). -/
  x : Byte
  /-- `Y`, the buffer (R11). -/
  y : Byte
  /-- `PC`, the index of the current instruction (R14). A natural number: log 1. -/
  pc : Nat
  /-- `LS`, the loop stack, oldest entry first and top last (R15, 00_scope.md R9). -/
  ls : List Nat
  /-- `STATUS` (R17). -/
  status : Status
  /-- `CAUSE` (R18). -/
  cause : Cause
  /-- `OUT`, the events emitted so far, oldest first (R21). -/
  out : List Event
  /-- How many input requests the run has made (R22). -/
  inCount : Nat
  /-- The latch of a cancellation request (R23(c), 60_exceptions.md R124). -/
  cancelPending : Bool
  /-- Instruction memory (20_memory.md R30, R32). No step changes it (R31; log 12). -/
  imem : Memory
  /-- The program length `n` (00_scope.md R5). No step changes it (R31; log 12). -/
  progLen : Nat
  /-- MODEL'S FIELD: the machine's parameters, which no step changes (log 1). -/
  params : Params
  /-- MODEL'S FIELD: the answers the host has placed on `IN`, the next one first (R22; log 4). -/
  answers : List Answer
  /-- MODEL'S FIELD: how many free draws have been taken (logs 4 and 11). -/
  draws : Nat
deriving DecidableEq, Repr

/-- The state right after reset (10_state.md R24, 70_reset_and_hazards.md R150), on a machine whose
memory nothing has written. `params`, `progLen`, `answers` and `draws`: DESIGN CHOICE, logs 1, 2 and 4. -/
def State.reset : State where
  x := 0
  y := 0
  pc := 0
  ls := []
  status := .idle
  cause := .none
  out := []
  inCount := 0
  cancelPending := false
  imem := []
  progLen := 0
  params := Params.exactBL
  answers := []
  draws := 0

end Sys2Proof.Machine
end

