-- ==== Sys2Proof/Machine/Ops.lean ====
section
/-! DEFINITION. The named operations over memory and registers: the primitives of 00_scope.md R9, fault
entry (60_exceptions.md R131), cancellation (R124) and the fetch (20_memory.md R33, 43_control.md R100).
There is no return from a fault (60_exceptions.md R132), so no operation for one. -/

namespace Sys2Proof.Machine

/-! ## Instruction memory -/

/-- The byte at an address, or no value where nothing was written. -/
def Memory.read : Memory → Nat → Option Byte
  | [], _ => none
  | (k, b) :: m, a => if k = a then some b else Memory.read m a

/-- Write one byte; addresses stay strictly rising. -/
def Memory.write : Memory → Nat → Byte → Memory
  | [], a, v => [(a, v)]
  | (k, b) :: m, a, v =>
    if a < k then (a, v) :: (k, b) :: m
    else if a = k then (a, v) :: m
    else (k, b) :: Memory.write m a v

/-- The canonical form: addresses strictly rising. An unlisted address reads as no value, so no entry can
repeat what an unlisted one reads as. -/
abbrev Memory.wf (m : Memory) : Prop := m.Pairwise (fun c d => c.1 < d.1)

/-- Write consecutive bytes from address `a` on (70_reset_and_hazards.md R151 step 4). -/
def Memory.load : Memory → Nat → List Byte → Memory
  | m, _, [] => m
  | m, a, b :: bs => Memory.load (Memory.write m a b) (a + 1) bs

/-- `IMem[a]` (00_scope.md R9, 20_memory.md R33): a partial function, with no value at `a >= n`. -/
def fetchCell (s : State) (a : Nat) : Option Byte :=
  if a < s.progLen then Memory.read s.imem a else none

/-! ## Registers -/

/-- `wrap8(a) = a mod 256` (00_scope.md R8), the one reduction of every value written to `X` (40_alu.md R79). -/
def wrap8 (a : Int) : Byte := BitVec.ofInt 8 a

/-- `X <- wrap8 r` (40_alu.md R70). -/
def State.writeX (s : State) (r : Int) : State := { s with x := wrap8 r }

/-- `Y <- v` (41_moves.md R85). -/
def State.writeY (s : State) (v : Byte) : State := { s with y := v }

/-- `PC <- target` (00_scope.md R9). -/
def State.jump (s : State) (target : Nat) : State := { s with pc := target }

/-- `PC <- PC + 1` (43_control.md R101). -/
def State.advance (s : State) : State := s.jump (s.pc + 1)

/-- `STATUS <- st`. -/
def State.setStatus (s : State) (st : Status) : State := { s with status := st }

/-! ## The loop stack (20_memory.md R35) -/

/-- `LS.depth = LS_DEPTH`: no further entry fits (60_exceptions.md R127); never with an unbounded stack. -/
def lsFull (s : State) : Bool := s.params.lsDepth == some s.ls.length

/-- `push(v)` (00_scope.md R9); no value where the stack is full. -/
def push (s : State) (v : Nat) : Option State :=
  if lsFull s then none else some { s with ls := s.ls ++ [v] }

/-- `pop()` (00_scope.md R9): the top and the state without it; no value where the stack is empty. -/
def pop (s : State) : Option (Nat × State) :=
  match s.ls.getLast? with
  | none => none
  | some t => some (t, { s with ls := s.ls.dropLast })

/-! ## Ports (42_io.md) -/

/-- `emit(kind, v)` (42_io.md R90): append one event to `OUT`. -/
def State.emit (s : State) (k : EventKind) (v : Byte) : State :=
  { s with out := s.out ++ [{ kind := k, v := v }] }

/-- `request_input()` and `STATUS <- WaitInput` (42_io.md R96 step 1). -/
def State.requestInput (s : State) : State :=
  { s with inCount := s.inCount + 1, status := .waitInput }

/-- The value an answer stores: `i mod 256`, or 0 on `Failure` (42_io.md R96, R97; 60_exceptions.md R123). -/
def Answer.stored : Answer → Int
  | .value i => i
  | .failure => 0

/-- The completion of a `.` (42_io.md R96 step 2): X written, PC advanced, `STATUS <- Running`. -/
def completeInput (s : State) (a : Answer) : State :=
  ((s.writeX (Answer.stored a)).advance).setStatus .running

/-! ## Faults and cancellation -/

/-- The state `raise F` leaves (60_exceptions.md R131). -/
def State.raised (s : State) (c : Cause) : State := { s with status := .faulted, cause := c }

/-- `raise F`, the ONE fault entry (60_exceptions.md R131): the instruction writes nothing,
`STATUS <- Faulted`, `CAUSE <- F`; there is no handler, vector or saved state. -/
def raise (c : Cause) (s : State) : Host.Outcome State Fault Refusal := .next (s.raised c)

/-- Taking a cancellation (60_exceptions.md R124): `STATUS <- Cancelled` and nothing else written. The
latch is consumed with it (log 5). At an instruction boundary no `.` waits, and the host's input stands. -/
def takeCancel (s : State) : State := { s with status := .cancelled, cancelPending := false }

/-- What the cancellation of a waiting `.` does to the host's input, which is no state of the circuit: the answer
placed next is consumed or not, a free value that the step draws (91_not_in_source.md N16 leaves it open).
DESIGN CHOICE, log 11. -/
def cancelInput (s : State) : State :=
  { s with
    answers := if Config.cancelConsumes s.draws then s.answers.tail else s.answers
    draws := s.draws + 1 }

/-- Taking a cancellation while the engine waits in `.` (60_exceptions.md R124, 42_io.md R96): the `.` does not
complete, `X` is not written and `PC` still indexes it. The host's placed input: log 11. -/
def cancelWaiting (s : State) : State := takeCancel (cancelInput s)

/-! ## Fetch and decode -/

/-- What the dispatch loop finds at `PC` (43_control.md R100). -/
inductive Fetched where
  /-- `PC >= n`: nothing is fetched (R102). -/
  | pastEnd
  /-- The cell below `n` holds no value (20_memory.md R33). -/
  | unwritten
  /-- The cell decodes to `Invalid` (30_encoding.md R54). -/
  | invalid
  /-- The cell decodes to an instruction. -/
  | op (i : Instr)
deriving DecidableEq, Repr

/-- Fetch and decode at `PC`, the end-of-program test first (43_control.md R100, R102). -/
def fetch (s : State) : Fetched :=
  if s.progLen ≤ s.pc then .pastEnd
  else
    match fetchCell s s.pc with
    | none => .unwritten
    | some b =>
      match decodeCell b with
      | .op i => .op i
      | .invalid => .invalid

/-! ## Register codes the host reads (10_state.md R17, 60_exceptions.md R129) -/

/-- The 3-bit code of `STATUS` (10_state.md R17). -/
def Status.code : Status → BitVec 3
  | .idle => 0
  | .running => 1
  | .waitInput => 2
  | .haltedEnd => 3
  | .haltedExplicit => 4
  | .faulted => 5
  | .cancelled => 6
  | .rejected => 7

/-- The 3-bit code of `CAUSE` (60_exceptions.md R129). -/
def Cause.code : Cause → BitVec 3
  | .none => 0
  | .mismatchedBrackets => 1
  | .divisionByZero => 2
  | .loopStackUnderflow => 3
  | .loopStackOverflow => 4
  | .illegalOpcode => 5
  | .loopScanOverrun => 6

/-- A terminal status (00_scope.md glossary, 10_state.md R17). -/
def Status.terminal : Status → Bool
  | .idle => false
  | .running => false
  | .waitInput => false
  | .haltedEnd => true
  | .haltedExplicit => true
  | .faulted => true
  | .cancelled => true
  | .rejected => true

end Sys2Proof.Machine
end

