-- ==== Sys2Proof/Machine/Operands.lean ====
section
/-! DEFINITION. The operand forms. No instruction names an operand (30_encoding.md R51): `X` is the implied
left operand and destination, `Y` the implied right operand, both read as unsigned integers (00_scope.md R8). -/

namespace Sys2Proof.Machine

/-- The left operand `a = X`, an integer in [0, 255] (40_alu.md R70). -/
def opX (s : State) : Int := (s.x.toNat : Int)

/-- The right operand `b = Y`, an integer in [0, 255] (40_alu.md R70). -/
def opY (s : State) : Int := (s.y.toNat : Int)

/-- Write an arithmetic result: `X <- wrap8 r`, `PC <- PC + 1` (40_alu.md R70, 43_control.md R101). -/
def retireX (s : State) (r : Int) : Host.Outcome State Fault Refusal :=
  .next (s.writeX r).advance

/-- The guard of `/` and `%`: DivisionByZero is raised "before anything is written" when `Y = 0`, for
every `X` (40_alu.md R77, R78; 60_exceptions.md R122). -/
def retireDivided (s : State) (r : Int) : Host.Outcome State Fault Refusal :=
  if s.y = 0 then raise .divisionByZero s else retireX s r

end Sys2Proof.Machine
end

