-- ==== Sys2Proof/Machine/Alu.lean ====
section
/-! DEFINITION. The arithmetic unit (40_alu.md R70 to R80): the exact integer result, reduced by `wrap8`
and written to `X`. -/

namespace Sys2Proof.Machine

/-- INC (40_alu.md R71): `X <- (X + 1) mod 256`. -/
def execInc (s : State) : Host.Outcome State Fault Refusal := retireX s (opX s + 1)

/-- DEC (40_alu.md R72): `X <- (X - 1) mod 256`. -/
def execDec (s : State) : Host.Outcome State Fault Refusal := retireX s (opX s - 1)

/-- ZERO (40_alu.md R73): `X <- 0`. -/
def execZero (s : State) : Host.Outcome State Fault Refusal := retireX s 0

/-- ADD (40_alu.md R74): `X <- (X + Y) mod 256`. -/
def execAdd (s : State) : Host.Outcome State Fault Refusal := retireX s (opX s + opY s)

/-- SUB (40_alu.md R75): `X <- (X - Y) mod 256`. -/
def execSub (s : State) : Host.Outcome State Fault Refusal := retireX s (opX s - opY s)

/-- MUL (40_alu.md R76): `X <- (X * Y) mod 256`. -/
def execMul (s : State) : Host.Outcome State Fault Refusal := retireX s (opX s * opY s)

/-- DIV (40_alu.md R77): `X <- X div Y`, or DivisionByZero. -/
def execDiv (s : State) : Host.Outcome State Fault Refusal := retireDivided s (opX s / opY s)

/-- MOD (40_alu.md R78): `X <- X mod Y`, or DivisionByZero. -/
def execMod (s : State) : Host.Outcome State Fault Refusal := retireDivided s (opX s % opY s)

end Sys2Proof.Machine
end

