-- ==== Sys2Proof/Machine/Flags.lean ====
section
/-! DEFINITION. There are no flags and no condition codes (10_state.md R19). The one condition an
instruction tests is `X = 0`, computed when `{` or `}` executes and not stored. -/

namespace Sys2Proof.Machine

/-- The zero-detect wire `Z = (X == 0)` (10_state.md R19), a function of `X` and not state. -/
def zeroX (s : State) : Bool := s.x == 0

end Sys2Proof.Machine
end

