-- ==== Sys2Proof/Machine/Control.lean ====
section
/-! DEFINITION. Control transfer (43_control.md R103 to R106): halt, loop-open with its forward scan, and
loop-close. -/

namespace Sys2Proof.Machine

/-- How the forward scan of 43_control.md R105 ends. -/
inductive Scan where
  /-- The matching loop-close is cell `j`. -/
  | found (j : Nat)
  /-- The scan index reached `n`: LoopScanOverrun (60_exceptions.md R128). -/
  | overrun
  /-- Cell `j` below `n` holds no value (20_memory.md R33). -/
  | unwritten (j : Nat)
deriving DecidableEq, Repr

/-- The scan of 43_control.md R105 over the `left` cells from index `j` up to the end of the program, with
`depth` loop-opens still to close. Cells other than the two brackets are passed over. -/
def scanFrom (m : Memory) : (left j depth : Nat) → Scan
  | 0, _, _ => .overrun
  | left + 1, j, depth =>
    match Memory.read m j with
    | none => .unwritten j
    | some b =>
      if b = openCell then scanFrom m left (j + 1) (depth + 1)
      else if b = closeCell then
        if depth ≤ 1 then .found j else scanFrom m left (j + 1) (depth - 1)
      else scanFrom m left (j + 1) depth

/-- `match(p)` (43_control.md R105): start after the loop-open at `p`, with count 1. It reads no register. -/
def matchOf (s : State) (p : Nat) : Scan := scanFrom s.imem (s.progLen - (p + 1)) (p + 1) 1

/-- LOPEN (43_control.md R104): enter the body when `X != 0`, else skip it and leave `LS` as it was
(90_conflicts.md C3). -/
def execLopen (s : State) : Host.Outcome State Fault Refusal :=
  if zeroX s then
    match matchOf s s.pc with
    | .found m => .next (s.jump (m + 1))
    | .overrun => raise .loopScanOverrun s
    | .unwritten j => .fault (.cellUnwritten j)
  else
    match push s s.pc with
    | some t => .next t.advance
    | none => raise .loopStackOverflow s

/-- LCLOSE (43_control.md R106): pop first, then jump to the popped index when `X != 0`, else fall through
(90_conflicts.md C2). -/
def execLclose (s : State) : Host.Outcome State Fault Refusal :=
  match pop s with
  | none => raise .loopStackUnderflow s
  | some (t, u) => if zeroX s then .next u.advance else .next (u.jump t)

/-- HALT (43_control.md R103): `STATUS <- HaltedExplicit`, nothing else. -/
def execHalt (s : State) : Host.Outcome State Fault Refusal := .next (s.setStatus .haltedExplicit)

end Sys2Proof.Machine
end

