-- ==== Sys2Proof/Machine/Io.lean ====
section
/-! DEFINITION. The port instructions (42_io.md R90 to R98) and the step of an engine that waits for input. -/

namespace Sys2Proof.Machine

/-- PRD (42_io.md R92): emit `(DEC, X)`. -/
def execPrd (s : State) : Host.Outcome State Fault Refusal := .next (s.emit .dec s.x).advance

/-- PRA (42_io.md R93): emit `(CHR, X)`. -/
def execPra (s : State) : Host.Outcome State Fault Refusal := .next (s.emit .chr s.x).advance

/-- DBG (42_io.md R94): emit `(DEC, Y)`, the same kind as PRD. -/
def execDbg (s : State) : Host.Outcome State Fault Refusal := .next (s.emit .dec s.y).advance

/-- INP, step 1 (42_io.md R96): open a request and wait; `PC` still indexes the `.`. Step 2 is
`completeInput`, taken by `awaitInput` or by the host's answer. -/
def execInp (s : State) : Host.Outcome State Fault Refusal := .next s.requestInput

/-- One step while `STATUS = WaitInput` (42_io.md R96 step 2, R98): the next answer the host has placed, else
a free draw, which may be that the host has not answered yet (then the engine goes on waiting). Log 4. -/
def awaitInput (s : State) : State :=
  match s.answers with
  | a :: rest => completeInput { s with answers := rest } a
  | [] =>
    match Config.hostDraw s.draws with
    | some a => completeInput { s with draws := s.draws + 1 } a
    | none => { s with draws := s.draws + 1 }

end Sys2Proof.Machine
end

