-- ==== Sys2Proof/Machine/Moves.lean ====
section
/-! DEFINITION. The register moves (41_moves.md R85 to R87). -/

namespace Sys2Proof.Machine

/-- STB (41_moves.md R85): `Y <- X`. -/
def execStb (s : State) : Host.Outcome State Fault Refusal := .next (s.writeY s.x).advance

/-- LDB (41_moves.md R86): `X <- Y`. -/
def execLdb (s : State) : Host.Outcome State Fault Refusal := retireX s (opY s)

end Sys2Proof.Machine
end

