-- ==== Sys2Proof/Machine/Dispatch.lean ====
section
/-! DEFINITION. The dispatch (43_control.md R100): "one arm per opcode and no default behaviour". -/

namespace Sys2Proof.Machine

/-- The effect of one instruction (43_control.md R100). -/
def exec (i : Instr) (s : State) : Host.Outcome State Fault Refusal :=
  match i with
  | .inc => Sys2Proof.Machine.execInc s
  | .dec => Sys2Proof.Machine.execDec s
  | .zero => Sys2Proof.Machine.execZero s
  | .add => Sys2Proof.Machine.execAdd s
  | .sub => Sys2Proof.Machine.execSub s
  | .mul => Sys2Proof.Machine.execMul s
  | .div => Sys2Proof.Machine.execDiv s
  | .mod => Sys2Proof.Machine.execMod s
  | .stb => Sys2Proof.Machine.execStb s
  | .ldb => Sys2Proof.Machine.execLdb s
  | .prd => Sys2Proof.Machine.execPrd s
  | .pra => Sys2Proof.Machine.execPra s
  | .inp => Sys2Proof.Machine.execInp s
  | .lopen => Sys2Proof.Machine.execLopen s
  | .lclose => Sys2Proof.Machine.execLclose s
  | .halt => Sys2Proof.Machine.execHalt s
  | .dbg => Sys2Proof.Machine.execDbg s

end Sys2Proof.Machine
end

