-- ==== Sys2Proof/Machine/Step.lean ====
section
/-! DEFINITION. One step of the machine (43_control.md R100, 42_io.md R98, 60_exceptions.md R124) and the
placing of an instruction where the next step fetches it. -/

namespace Sys2Proof.Machine

/-- One step while `STATUS = Running` and no cancellation is latched: the body of `step()` in 43_control.md R100. -/
def stepRunning (s : State) : Host.Outcome State Fault Refusal :=
  match fetch s with
  | .pastEnd => .next (s.setStatus .haltedEnd)
  | .unwritten => .fault (.cellUnwritten s.pc)
  | .invalid => raise .illegalOpcode s
  | .op i => exec i s

/-- One step of the machine. A latched cancellation is taken first, at the boundary or while waiting
(60_exceptions.md R124, R130); the host's cancel latches none while waiting (`hostCancel`). In `Idle` and in a terminal status the engine takes no step of its own
(43_control.md R100, 10_state.md R17): the state stays as it is (log 3). -/
def step (s : State) : Host.Outcome State Fault Refusal :=
  match s.status with
  | .running => if s.cancelPending then .next (takeCancel s) else stepRunning s
  | .waitInput => if s.cancelPending then .next (cancelWaiting s) else .next (awaitInput s)
  | .idle => .next s
  | .haltedEnd => .next s
  | .haltedExplicit => .next s
  | .faulted => .next s
  | .cancelled => .next s
  | .rejected => .next s

/-- `s` with the table's instruction `w` as the cell at `PC`, inside the program, and the engine running with
no cancellation latched, so that the next step fetches and runs it. It stands for the load and start of
70_reset_and_hazards.md R151 (log 7). -/
def State.withFetchWord (s : State) (nbits w : Nat) : State :=
  { s with
    imem := Memory.write s.imem s.pc (tableCell nbits w)
    progLen := max s.progLen (s.pc + 1)
    status := .running
    cancelPending := false }

end Sys2Proof.Machine
end

