-- ==== Sys2Proof/Machine/Loader.lean ====
section
/-! DEFINITION. The Sanitizer/Validator (30_encoding.md R57 to R64) and load and start
(70_reset_and_hazards.md R151). A source text is a sequence of characters. -/

namespace Sys2Proof.Machine

/-- The opcode a character spells, if it is one of the 17 characters of ALPHABET (30_encoding.md R52, R57). -/
def charInstr (c : Char) : Option Instr :=
  if c.toNat < 256 then
    match decodeCell (BitVec.ofNat 8 c.toNat) with
    | .op i => some i
    | .invalid => none
  else none

/-- Occurrences of the loop-open character in the raw text (30_encoding.md R59). -/
def countOpen (t : List Char) : Nat := t.countP (fun c => c.toNat == openCell.toNat)

/-- Occurrences of the loop-close character in the raw text (30_encoding.md R59). -/
def countClose (t : List Char) : Nat := t.countP (fun c => c.toNat == closeCell.toNat)

/-- What the Sanitizer answers (30_encoding.md R57). -/
inductive Sanitized where
  | mismatchedBrackets
  | program (p : List Instr)
deriving DecidableEq, Repr

/-- `sanitize(T)` (30_encoding.md R57): the balance check on the raw text (R59), then the filter (R60).
Trimming is left out here: R58 says a model may (`sanitizeTrimmed` has it). -/
def sanitize (t : List Char) : Sanitized :=
  if countOpen t = countClose t then .program (t.filterMap charInstr) else .mismatchedBrackets

/-- `trim` (30_encoding.md R58) for a given set of whitespace characters; the set is not given (D25, N12). -/
def trim (ws : Char → Bool) (t : List Char) : List Char :=
  ((t.dropWhile ws).reverse.dropWhile ws).reverse

/-- `sanitize` with its trimming step (30_encoding.md R57, R58). -/
def sanitizeTrimmed (ws : Char → Bool) (t : List Char) : Sanitized := sanitize (trim ws t)

/-- The source text of a file: each line trimmed, the lines concatenated (30_encoding.md R62(b)). -/
def fileSource (ws : Char → Bool) (lines : List (List Char)) : List Char :=
  (lines.map (trim ws)).flatten

/-- `n <= IMEM_SIZE`: the program fits (00_scope.md R5, 70_reset_and_hazards.md R151 step 3). -/
def fitsImem (p : Params) (n : Nat) : Bool :=
  match p.imemSize with
  | none => true
  | some m => decide (n ≤ m)

/-- Steps 4 and 5 of 70_reset_and_hazards.md R151 on the cells given: write them from index 0, set the
program length, `STATUS <- Running`. -/
def startCells (s : State) (cells : List Byte) : State :=
  { s with imem := Memory.load s.imem 0 cells, progLen := cells.length, status := .running }

/-- The state of a rejected load (60_exceptions.md R121). -/
def rejectLoad (s : State) : State := { s with status := .rejected, cause := .mismatchedBrackets }

/-- Load and start (70_reset_and_hazards.md R151), steps 1 to 5; the status test is in `hostStep`. -/
def loadAndStart (s : State) (t : List Char) : Host.Outcome State Fault Refusal :=
  match sanitize t with
  | .mismatchedBrackets => .next (rejectLoad s)
  | .program p =>
    if fitsImem s.params p.length then .next (startCells s (p.map encode))
    else .refused .programTooLong

end Sys2Proof.Machine
end

