-- ==== Sys2Proof/Machine/HostSide.lean ====
section
/-! DEFINITION. The host's part: the actions of 70_reset_and_hazards.md R154 and the rendering of output
events (42_io.md R91). -/

namespace Sys2Proof.Machine

/-- Reset (70_reset_and_hazards.md R150): the values of 10_state.md R24 in any status. Instruction memory is
not changed by reset (D17); the machine's parameters and the host's own input are not state of the circuit
(log 4). -/
def hostReset (s : State) : State :=
  { State.reset with
    imem := s.imem
    progLen := s.progLen
    params := s.params
    answers := s.answers
    draws := s.draws }

/-- The host obtains an answer from one line of its input, or from end of stream (42_io.md R95): end of
stream is `Failure`, every time it is asked (D29). -/
def lineAnswer : Option (List Char) → Answer
  | none => .failure
  | some line => Config.parseLine line

/-- What the host may do, one constructor per row of 70_reset_and_hazards.md R154. -/
inductive HostAction where
  | reset
  | load (source : List Char)
  | consumeOutput
  | answer (a : Answer)
  | cancel
  | readStatus
deriving DecidableEq, Repr

/-- The host asserts `cancel` (60_exceptions.md R124). While `Running` the request is latched (10_state.md
R23(c)) and taken at the boundary, by the next step; while the engine waits in `.` it is taken at once. In any
other status it has no effect (60_exceptions.md R130; 95_test_vectors.md V12 row 6). -/
def hostCancel (s : State) : State :=
  match s.status with
  | .running => { s with cancelPending := true }
  | .waitInput => cancelWaiting s
  | .idle => s
  | .haltedEnd => s
  | .haltedExplicit => s
  | .faulted => s
  | .cancelled => s
  | .rejected => s

/-- The host answers an open request (42_io.md R96 step 2). A cancellation that is latched comes first: the `.`
does not complete (60_exceptions.md R124). -/
def hostAnswer (s : State) (a : Answer) : State :=
  if s.cancelPending then cancelWaiting s else completeInput s a

/-- One action of the host in the engine state R154 requires; elsewhere it is refused (U16). Reading OUT,
STATUS and CAUSE changes nothing. -/
def hostStep (act : HostAction) (s : State) : Host.Outcome State Fault Refusal :=
  match act with
  | .reset => .next (hostReset s)
  | .load t => if s.status = .idle then loadAndStart s t else .refused .hostActionNotEnabled
  | .consumeOutput => .next s
  | .answer a => if s.status = .waitInput then .next (hostAnswer s a) else .refused .hostActionNotEnabled
  | .cancel => .next (hostCancel s)
  | .readStatus => .next s

/-- What the host reads of `STATUS` and `CAUSE` (70_reset_and_hazards.md R154). -/
def statusRegs (s : State) : BitVec 3 × BitVec 3 := (s.status.code, s.cause.code)

/-- The character of a decimal digit (93_implementation_defined.md G2). -/
def digitChar (d : Nat) : Char := Char.ofNat (48 + d)

/-- The decimal numeral of a number below 1000: digits only, most significant first, no leading zero (42_io.md
R91, D19). -/
def numeral (n : Nat) : List Char :=
  if n < 10 then [digitChar n]
  else if n < 100 then [digitChar (n / 10), digitChar (n % 10)]
  else [digitChar (n / 100), digitChar (n / 10 % 10), digitChar (n % 10)]

/-- `render(e)` (42_io.md R91). -/
def render (e : Event) : List Char :=
  match e.kind with
  | .dec => numeral e.v.toNat
  | .chr => [Char.ofNat e.v.toNat]

/-- The console text of a run: the renderings of its events, concatenated in order (42_io.md R91). -/
def console (s : State) : List Char := (s.out.map render).flatten

end Sys2Proof.Machine
end

