-- ==== Sys2Proof/Safety.lean ====
section
/-! DEFINITION. What statements about the engine are written in: counts of loop brackets, the matching
loop-close, nesting, the invariants of 10_state.md and the runs that the engine and the host can make. -/

namespace Sys2Proof.Machine

/-! ## Programs in instruction memory -/

/-- Cell `a` of the program is `c`. -/
def cellIs (s : State) (c : Byte) (a : Nat) : Bool := fetchCell s a == some c

/-- How many loop-opens stand in the cells `lo` to `hi - 1`. -/
def opensIn (s : State) (lo hi : Nat) : Nat := (List.range' lo (hi - lo)).countP (cellIs s openCell)

/-- How many loop-closes stand in the cells `lo` to `hi - 1`. -/
def closesIn (s : State) (lo hi : Nat) : Nat := (List.range' lo (hi - lo)).countP (cellIs s closeCell)

/-- Cell `j` is the matching loop-close of the loop-open at `p`: "the smallest `j > p` such that the cells
`p+1 .. j` contain exactly one more" close than open (43_control.md R105). -/
abbrev IsMatch (s : State) (p j : Nat) : Prop :=
  p < j ∧ j < s.progLen ∧
    closesIn s (p + 1) (j + 1) = opensIn s (p + 1) (j + 1) + 1 ∧
    ∀ k, k < j → p < k → closesIn s (p + 1) (k + 1) ≠ opensIn s (p + 1) (k + 1) + 1

/-- Every cell below the program length holds a byte (70_reset_and_hazards.md R151 step 4). -/
abbrev Loaded (s : State) : Prop := ∀ a, a < s.progLen → (Memory.read s.imem a).isSome = true

/-- The cell at `a` is one of the 17 opcodes. -/
def decodesAt (s : State) (a : Nat) : Bool :=
  match fetchCell s a with
  | none => false
  | some b =>
    match decodeCell b with
    | .op _ => true
    | .invalid => false

/-- What the engine may assume of a loaded program (30_encoding.md R64): every cell decodes, and the totals
of loop-open and loop-close are equal. -/
structure ProgramOk (s : State) : Prop where
  decodes : ∀ a, a < s.progLen → decodesAt s a = true
  balanced : opensIn s 0 s.progLen = closesIn s 0 s.progLen

/-- The program up to index `p` never closes more loops than it opened. -/
abbrev NestedUpTo (s : State) (p : Nat) : Prop :=
  ∀ k, k < p + 1 → closesIn s 0 k ≤ opensIn s 0 k

/-- The brackets of the program are properly nested (10_state.md R16, 30_encoding.md R64). -/
abbrev ProperlyNested (s : State) : Prop :=
  NestedUpTo s s.progLen ∧ opensIn s 0 s.progLen = closesIn s 0 s.progLen

/-- The brackets of a program are properly nested: the totals are equal and no prefix closes more loops than it
opens (10_state.md R16, 30_encoding.md R63). -/
abbrev NestedProgram (p : List Instr) : Prop :=
  balanced p = true ∧ ∀ k, k < p.length + 1 → (p.take k).count .lclose ≤ (p.take k).count .lopen

/-- The loop of the loop-open at `q` encloses index `p`: it lies before `p` and its matching loop-close "lies
at or after" `p` (10_state.md R16). -/
def encloses (s : State) (p q : Nat) : Bool :=
  cellIs s openCell q &&
    match matchOf s q with
    | .found m => decide (p ≤ m)
    | .overrun => false
    | .unwritten _ => false

/-- The loops that enclose index `p`, outermost first (10_state.md R16); its length is the nesting level of `p`. -/
def enclosingLoops (s : State) (p : Nat) : List Nat := (List.range p).filter (encloses s p)

/-! ## Invariants -/

/-- The causes that go with a status (10_state.md R18, 60_exceptions.md R129). -/
def causeFits : Status → Cause → Bool
  | .faulted, c => c != .none && c != .mismatchedBrackets
  | .rejected, c => c == .mismatchedBrackets
  | .idle, c => c == .none
  | .running, c => c == .none
  | .waitInput, c => c == .none
  | .haltedEnd, c => c == .none
  | .haltedExplicit, c => c == .none
  | .cancelled, c => c == .none

/-- The invariant of the machine: memory in canonical form and loaded up to `n`, the program fits the
parameters, `PC` is at most `n` (10_state.md R14), every loop-stack entry is the index of a loop-open and the
stack within its capacity (R15), `CAUSE` agrees with `STATUS` (R18, 60_exceptions.md R129), a waiting engine's
`PC` indexes the `.` (R23(b)), a cancellation is latched in a running engine only (R23(c); elsewhere it is taken
at once or has no effect), and before a run every register has its reset value (R24). -/
structure Inv (s : State) : Prop where
  memWf : Memory.wf s.imem
  loaded : Loaded s
  paramsWf : s.params.wf = true
  fits : fitsImem s.params s.progLen = true
  pcBound : s.pc ≤ s.progLen
  lsOpens : ∀ v ∈ s.ls, cellIs s openCell v = true
  lsBound : ∀ d, s.params.lsDepth = some d → s.ls.length ≤ d
  cause : causeFits s.status s.cause = true
  waiting : s.status = .waitInput → fetch s = .op .inp
  latch : s.cancelPending = true → s.status = .running
  fresh : s.status = .idle → s.x = 0 ∧ s.y = 0 ∧ s.pc = 0 ∧ s.ls = [] ∧ s.out = [] ∧ s.inCount = 0

/-- The loop-stack invariant of 10_state.md R16: the program is loaded and properly nested and `LS` lists the
loops that enclose `PC`, outermost first. It is stated at every boundary: between a taken loop-close and its
loop-open, `PC` is at the loop-open, whose own loop does not enclose it. -/
structure NestingInv (s : State) : Prop where
  loaded : Loaded s
  nested : ProperlyNested s
  pcBound : s.pc ≤ s.progLen
  waiting : s.status = .waitInput → fetch s = .op .inp
  stack : s.ls = enclosingLoops s s.pc

/-- The same for a program that is only balanced in count (43_control.md R111): the part of the program up to
`PC` is nested, and `LS` lists the loops that enclose `PC`. -/
structure BalancedInv (s : State) : Prop where
  loaded : Loaded s
  balanced : opensIn s 0 s.progLen = closesIn s 0 s.progLen
  nestedToPc : NestedUpTo s s.pc
  pcBound : s.pc ≤ s.progLen
  waiting : s.status = .waitInput → fetch s = .op .inp
  stack : s.ls = enclosingLoops s s.pc

/-! ## Runs of the engine and the host -/

/-- One step of the whole system: of the engine, or of the host (00_scope.md R6). The host may act between any
two steps of the engine, so a cancellation may come at every boundary or not at all (60_exceptions.md R124, R130). -/
inductive SysStep : State → State → Prop where
  | engine (s t : State) (h : step s = .next t) : SysStep s t
  | host (act : HostAction) (s t : State) (h : hostStep act s = .next t) : SysStep s t

/-- The states a machine with any parameters that meet 00_scope.md R5 can come to from reset. -/
inductive Reachable : State → Prop where
  | reset (p : Params) (h : p.wf = true) : Reachable { State.reset with params := p }
  | next (s t : State) (hs : Reachable s) (h : SysStep s t) : Reachable t

/-! ## Frames -/

/-- `t` is `s` with a cancellation taken while a `.` waits (60_exceptions.md R124): `STATUS` written and the latch
clear, no register, no event and no cause written. Of the host's input only the answer placed next may be gone,
which 91_not_in_source.md N16 leaves open, and the count of free draws differ (logs 4, 5 and 11). -/
structure CancelledWaiting (s t : State) : Prop where
  state : t =
    { s with status := .cancelled, cancelPending := false, answers := t.answers, draws := t.draws }
  input : t.answers = s.answers ∨ t.answers = s.answers.tail

/-- What no instruction but loading a program, a cancellation or an input request touches: every cell of
instruction memory reads as before, the program length and the parameters stand, the latch and the host's
placed answers and draws too. -/
structure MachineKept (s t : State) : Prop where
  mem : ∀ a, Memory.read t.imem a = Memory.read s.imem a
  progLen : t.progLen = s.progLen
  params : t.params = s.params
  cancelPending : t.cancelPending = s.cancelPending
  answers : t.answers = s.answers
  draws : t.draws = s.draws

/-- Two states an instruction cannot tell apart: the same registers, loop stack, program and parameters. The
output, the status registers, the request count, the latch and the host's input may differ. -/
structure SameForProgram (s t : State) : Prop where
  x : t.x = s.x
  y : t.y = s.y
  pc : t.pc = s.pc
  ls : t.ls = s.ls
  imem : t.imem = s.imem
  progLen : t.progLen = s.progLen
  params : t.params = s.params

end Sys2Proof.Machine
end

