-- ==== Sys2Proof/Certificates/Slice0/Obligations.lean ====
section
/-! DEFINITION. The statements about the Bloomlang engine, from the numbered rules of spec/. Each docstring
names the rule or the section and, where a clause rests on a decision of the spec or of this model, that too. -/

open Sys2Proof Sys2Proof.Machine

/-! ## Encoding (30_encoding.md) -/

/-- The encoder and the decoder agree on every instruction, in both directions (30_encoding.md section 1). -/
def Obligations.DecodeAndEncodeAgree : Prop :=
  ∀ (b : Byte) (i : Instr), decodeCell b = .op i ↔ encode i = b

/-- Words written out from the "code (binary)" column of the opcode map, two of each family or more, and "of the
256 cell values 17 are opcodes and 239 are Invalid" (30_encoding.md section 1). -/
def Obligations.SpecWordsDecode : Prop :=
  decodeCell 0b01011110 = .op .inc ∧ decodeCell 0b01100000 = .op .dec ∧
  decodeCell 0b00101101 = .op .sub ∧ decodeCell 0b00100101 = .op .mod ∧
  decodeCell 0b00111101 = .op .stb ∧ decodeCell 0b01111110 = .op .ldb ∧
  decodeCell 0b00101110 = .op .inp ∧ decodeCell 0b00100100 = .op .dbg ∧
  decodeCell 0b01111011 = .op .lopen ∧ decodeCell 0b01111101 = .op .lclose ∧
  decodeCell 0b01111100 = .op .halt ∧ decodeCell 0b01000001 = .invalid ∧
  ((List.range 256).countP fun n => decodeCell (BitVec.ofNat 8 n) == .invalid) = 239

/-! ## The arithmetic unit (40_alu.md): each result is also the instruction's completion -/

/-- R71, with its encoding. -/
def Obligations.IncResult : Prop :=
  decodeCell 0x5E = .op .inc ∧
  ∀ s : State, exec .inc s =
    .next { s with x := BitVec.ofNat 8 ((s.x.toNat + 1) % 256), pc := s.pc + 1 }

/-- R72, with its encoding: `X = 0` gives 255, any other `X` gives `X - 1`. -/
def Obligations.DecResult : Prop :=
  decodeCell 0x60 = .op .dec ∧
  ∀ s : State, exec .dec s =
    .next { s with
      x := if s.x = 0 then 255 else BitVec.ofNat 8 (s.x.toNat - 1)
      pc := s.pc + 1 }

/-- R73, with its encoding. -/
def Obligations.ZeroResult : Prop :=
  decodeCell 0x21 = .op .zero ∧
  ∀ s : State, exec .zero s = .next { s with x := 0, pc := s.pc + 1 }

/-- R74, with its encoding. -/
def Obligations.AddResult : Prop :=
  decodeCell 0x2B = .op .add ∧
  ∀ s : State, exec .add s =
    .next { s with x := BitVec.ofNat 8 ((s.x.toNat + s.y.toNat) % 256), pc := s.pc + 1 }

/-- R75, with its encoding: `X - Y` below 0 wraps up by 256. -/
def Obligations.SubResult : Prop :=
  decodeCell 0x2D = .op .sub ∧
  ∀ s : State, exec .sub s =
    .next { s with
      x := BitVec.ofNat 8
        (if s.y.toNat ≤ s.x.toNat then s.x.toNat - s.y.toNat else s.x.toNat + 256 - s.y.toNat)
      pc := s.pc + 1 }

/-- R76, with its encoding. -/
def Obligations.MulResult : Prop :=
  decodeCell 0x2A = .op .mul ∧
  ∀ s : State, exec .mul s =
    .next { s with x := BitVec.ofNat 8 (s.x.toNat * s.y.toNat % 256), pc := s.pc + 1 }

/-- R77, with its encoding: the quotient where `Y != 0`, else the fault with nothing else written. -/
def Obligations.DivResult : Prop :=
  decodeCell 0x2F = .op .div ∧
  ∀ s : State, exec .div s =
    if s.y = 0 then .next { s with status := .faulted, cause := .divisionByZero }
    else .next { s with x := BitVec.ofNat 8 (s.x.toNat / s.y.toNat), pc := s.pc + 1 }

/-- R78, with its encoding: the remainder where `Y != 0`, else the fault with nothing else written. -/
def Obligations.ModResult : Prop :=
  decodeCell 0x25 = .op .mod ∧
  ∀ s : State, exec .mod s =
    if s.y = 0 then .next { s with status := .faulted, cause := .divisionByZero }
    else .next { s with x := BitVec.ofNat 8 (s.x.toNat % s.y.toNat), pc := s.pc + 1 }

/-- The frame of the arithmetic and move instructions: the nine that write `X`, and `=`, which writes `Y`. The
fault of `/` and `%` writes the status registers. -/
def Obligations.RegisterInstructionsFrame : Prop :=
  ∀ (i : Instr) (s t : State), exec i s = .next t →
    (i ∈ [.inc, .dec, .zero, .add, .sub, .mul, .div, .mod, Instr.ldb] →
      t.y = s.y ∧ t.ls = s.ls ∧ t.out = s.out ∧ t.inCount = s.inCount ∧ MachineKept s t ∧
      (((i = .div ∨ i = .mod) ∧ s.y = 0) ∨ (t.status = s.status ∧ t.cause = s.cause))) ∧
    (i = .stb →
      t.x = s.x ∧ t.ls = s.ls ∧ t.out = s.out ∧ t.inCount = s.inCount ∧ MachineKept s t ∧
      t.status = s.status ∧ t.cause = s.cause)

/-- Only `/` and `%`, and only with `Y = 0`, raise DivisionByZero, whatever the instruction, the register
values and the memory (60_exceptions.md section 1, 40_alu.md section 2). -/
def Obligations.DivisionByZeroOnlyFromDivMod : Prop :=
  ∀ s t : State, step s = .next t → t.cause = .divisionByZero → s.cause ≠ .divisionByZero →
    (fetch s = .op .div ∨ fetch s = .op .mod) ∧ s.y = 0

/-! ## Register moves (41_moves.md) -/

/-- R85, with its encoding. -/
def Obligations.StbResult : Prop :=
  decodeCell 0x3D = .op .stb ∧
  ∀ s : State, exec .stb s = .next { s with y := s.x, pc := s.pc + 1 }

/-- R86, with its encoding. -/
def Obligations.LdbResult : Prop :=
  decodeCell 0x7E = .op .ldb ∧
  ∀ s : State, exec .ldb s = .next { s with x := s.y, pc := s.pc + 1 }

/-- `Y` is written by `=` only, and then it is a copy of `X`: no other instruction and no other step of the
machine changes it (10_state.md section 1). -/
def Obligations.BufferWrittenOnlyByStb : Prop :=
  ∀ s t : State, step s = .next t → t.y ≠ s.y →
    s.status = .running ∧ fetch s = .op .stb ∧ t.y = s.x

/-- `X` is written only by the ten instructions 10_state.md section 1 lists. -/
def Obligations.AccumulatorWriters : Prop :=
  ∀ s t : State, step s = .next t → t.x ≠ s.x →
    (s.status = .waitInput ∧ t.status = .running ∧ t.pc = s.pc + 1) ∨
    (s.status = .running ∧
      ∃ i, fetch s = .op i ∧
        i ∈ [.inc, .dec, .zero, .add, .sub, .mul, .div, .mod, Instr.ldb])

/-! ## Ports (42_io.md) -/

/-- R92, with its encoding. -/
def Obligations.PrdResult : Prop :=
  decodeCell 0x23 = .op .prd ∧
  ∀ s : State, exec .prd s =
    .next { s with out := s.out ++ [{ kind := .dec, v := s.x }], pc := s.pc + 1 }

/-- R93, with its encoding. -/
def Obligations.PraResult : Prop :=
  decodeCell 0x40 = .op .pra ∧
  ∀ s : State, exec .pra s =
    .next { s with out := s.out ++ [{ kind := .chr, v := s.x }], pc := s.pc + 1 }

/-- R94, with its encoding: the kind and the port of `#`. -/
def Obligations.DbgResult : Prop :=
  decodeCell 0x24 = .op .dbg ∧
  ∀ s : State, exec .dbg s =
    .next { s with out := s.out ++ [{ kind := .dec, v := s.y }], pc := s.pc + 1 }

/-- The two steps of `.`, with the encoding: the request, then the host's answer (`Value(i)` stores `i mod 256`,
`Failure` stores 0), or a cancellation, which is taken at once and before any answer given after it (42_io.md section
2; the two steps are decision D1 of the spec, the reduction decision D13, the cancellation decision D15; what it does
to the host's placed input is left open, log 11). -/
def Obligations.InpRequestThenAnswer : Prop :=
  decodeCell 0x2E = .op .inp ∧
  (∀ s : State, exec .inp s =
    .next { s with status := .waitInput, inCount := s.inCount + 1 }) ∧
  (∀ (s : State) (i : Int), s.status = .waitInput → s.cancelPending = false →
    hostStep (.answer (.value i)) s =
      .next { s with x := BitVec.ofNat 8 (i % 256).toNat, pc := s.pc + 1, status := .running }) ∧
  (∀ s : State, s.status = .waitInput → s.cancelPending = false →
    hostStep (.answer .failure) s =
      .next { s with x := 0, pc := s.pc + 1, status := .running }) ∧
  (∀ s : State, s.status = .waitInput →
    ∃ t, hostStep .cancel s = .next t ∧ CancelledWaiting s t ∧
      ∀ a : Answer, hostStep (.answer a) t = .refused .hostActionNotEnabled)

/-- A step of a waiting engine with an answer placed completes the `.` with it, a `Failure` as 0. The field
`answers` is the model's own form of the oracle `IN` (log 4). -/
def Obligations.WaitingStepTakesPlacedAnswer : Prop :=
  ∀ (s : State) (rest : List Answer), s.status = .waitInput → s.cancelPending = false →
    (∀ i : Int, s.answers = .value i :: rest →
      step s = .next { s with
        x := BitVec.ofNat 8 (i % 256).toNat
        pc := s.pc + 1
        status := .running
        answers := rest }) ∧
    (s.answers = .failure :: rest →
      step s = .next { s with x := 0, pc := s.pc + 1, status := .running, answers := rest })

/-- A waiting engine does one of two things in a step. There is an answer `a`, the next one placed or, with none
placed, the free host draw: then the `.` completes on `a`, and `X` is what `a` stores. There is none: then the engine
goes on waiting with everything but the draw counter as it was. It holds whatever the free draw is (log 4; 42_io.md
section 2). -/
def Obligations.WaitingStepAnswersOrWaits : Prop :=
  ∀ s : State, s.status = .waitInput → s.cancelPending = false →
    ∃ t, step s = .next t ∧
      ((∃ a : Answer,
          (s.answers.head? = some a ∨ s.answers = [] ∧ Config.hostDraw s.draws = some a) ∧
          (∀ i : Int, a = .value i → t.x = BitVec.ofNat 8 (i % 256).toNat) ∧
          (a = .failure → t.x = 0) ∧
          t = { s with
            x := t.x
            pc := s.pc + 1
            status := .running
            answers := s.answers.tail
            draws := t.draws }) ∨
        (s.answers = [] ∧ Config.hostDraw s.draws = none ∧ t = { s with draws := t.draws }))

/-- The frame of the port instructions: `#`, `@` and `$` write `OUT` and `PC`; the first step of `.` writes
`STATUS` and the request count. -/
def Obligations.PortInstructionsFrame : Prop :=
  ∀ (i : Instr) (s t : State), i ∈ [.prd, .pra, .dbg, Instr.inp] → exec i s = .next t →
    t.x = s.x ∧ t.y = s.y ∧ t.ls = s.ls ∧ t.cause = s.cause ∧ MachineKept s t ∧
    (i = .inp → t.out = s.out ∧ t.pc = s.pc) ∧
    (i ≠ .inp → t.status = s.status ∧ t.inCount = s.inCount)

/-- `OUT` is append-only: no step of the engine withdraws or changes an event, and one step appends at most one
(10_state.md section 5, 42_io.md section 1). -/
def Obligations.OutputIsAppendOnly : Prop :=
  ∀ s t : State, step s = .next t → t.out = s.out ∨ ∃ e : Event, t.out = s.out ++ [e]

/-- The rendering of a number: one to three digits, no leading zero but for 0 itself, and the digits' decimal
value is the number (42_io.md section 1; decision D19 of the spec). -/
def Obligations.NumeralIsShortestDecimal : Prop :=
  ∀ v : Byte, ∃ d : List Nat,
    render { kind := .dec, v := v } = d.map (fun k => Char.ofNat (48 + k)) ∧
    (∀ k ∈ d, k < 10) ∧ 1 ≤ d.length ∧ d.length ≤ 3 ∧
    d.foldl (fun n k => 10 * n + k) 0 = v.toNat ∧ (d.head? = some 0 → d = [0])

/-! ## Control transfer (43_control.md) -/

/-- R103, with its encoding: `X`, `Y`, `PC`, `LS` and `OUT` unchanged. -/
def Obligations.HaltResult : Prop :=
  decodeCell 0x7C = .op .halt ∧
  ∀ s : State, exec .halt s = .next { s with status := .haltedExplicit }

/-- R105: on a loaded program the forward scan answers `j` exactly when `j` is the smallest index past `p` at
which the cells `p+1 .. j` hold one more loop-close than loop-open, and overruns exactly when there is none. -/
def Obligations.ScanFindsTheMatch : Prop :=
  ∀ (s : State) (p : Nat), Loaded s →
    (∀ j, matchOf s p = .found j ↔ IsMatch s p j) ∧
    (matchOf s p = .overrun ↔ ∀ j, ¬ IsMatch s p j)

/-- Loop-open with `X != 0` and room on the stack enters the body (43_control.md section 2). -/
def Obligations.LopenEntersBody : Prop :=
  ∀ s : State, s.x ≠ 0 → s.params.lsDepth ≠ some s.ls.length →
    exec .lopen s = .next { s with ls := s.ls ++ [s.pc], pc := s.pc + 1 }

/-- Loop-open with `X = 0` skips past the matching loop-close and leaves `LS` as it was (43_control.md section 2;
decision D3 of the spec). -/
def Obligations.LopenSkipsBody : Prop :=
  ∀ (s : State) (m : Nat), s.x = 0 → Loaded s → IsMatch s s.pc m →
    exec .lopen s = .next { s with pc := m + 1 }

/-- Where the loop instructions trap, with nothing else written (60_exceptions.md section 1; decisions D5, D9 and
D4 of the spec): a full stack on entry, no matching loop-close on a skip, an empty stack at a loop-close for
either value of `X`. -/
def Obligations.LoopInstructionFaults : Prop :=
  (∀ s : State, s.x ≠ 0 → s.params.lsDepth = some s.ls.length →
    exec .lopen s = .next { s with status := .faulted, cause := .loopStackOverflow }) ∧
  (∀ s : State, s.x = 0 → Loaded s → (∀ j, ¬ IsMatch s s.pc j) →
    exec .lopen s = .next { s with status := .faulted, cause := .loopScanOverrun }) ∧
  (∀ s : State, s.ls = [] →
    exec .lclose s = .next { s with status := .faulted, cause := .loopStackUnderflow })

/-- Loop-close pops, then jumps to the popped index when `X != 0` and falls through when `X = 0`
(43_control.md section 2; decision D2 of the spec). -/
def Obligations.LclosePopsAndBranches : Prop :=
  ∀ (s : State) (l : List Nat) (t : Nat), s.ls = l ++ [t] →
    exec .lclose s = .next { s with ls := l, pc := if s.x = 0 then s.pc + 1 else t }

/-- The frame of the three control instructions. -/
def Obligations.ControlInstructionsFrame : Prop :=
  ∀ (i : Instr) (s t : State), i ∈ [.lopen, .lclose, Instr.halt] → exec i s = .next t →
    t.x = s.x ∧ t.y = s.y ∧ t.out = s.out ∧ t.inCount = s.inCount ∧ MachineKept s t ∧
    (i = .halt → t.ls = s.ls ∧ t.pc = s.pc ∧ t.cause = s.cause) ∧
    (i ≠ .halt → t.status = .faulted ∨ (t.status = s.status ∧ t.cause = s.cause))

/-- Over a taken loop-close and the loop-open it jumps to, "stack depth stays stable": two steps later `PC` is
at the first cell of the body and everything else is as it was (43_control.md section 3, marked derived there). -/
def Obligations.TakenCloseReentersInTwoSteps : Prop :=
  ∀ (s : State) (l : List Nat) (p : Nat),
    s.status = .running → s.cancelPending = false → fetch s = .op .lclose → s.x ≠ 0 →
    s.ls = l ++ [p] → cellIs s openCell p = true →
    (∀ d, s.params.lsDepth = some d → s.ls.length ≤ d) →
    ∃ u, step s = .next u ∧ step u = .next { s with pc := p + 1 }

/-- The only values `PC` takes: kept, `PC + 1`, past the matching loop-close, or a popped entry
(43_control.md section 3, 10_state.md section 2). -/
def Obligations.PcTargets : Prop :=
  ∀ s t : State, step s = .next t →
    t.pc = s.pc ∨ t.pc = s.pc + 1 ∨
    (fetch s = .op .lopen ∧ s.x = 0 ∧ ∃ m, matchOf s s.pc = .found m ∧ t.pc = m + 1) ∨
    (fetch s = .op .lclose ∧ s.x ≠ 0 ∧ s.ls = t.ls ++ [t.pc])

/-- `LS` is written only by loop-open, which pushes its own index, and by loop-close, which pops the top
(10_state.md section 3, 20_memory.md section 1). -/
def Obligations.LoopStackWriters : Prop :=
  ∀ s t : State, step s = .next t → t.ls ≠ s.ls →
    (fetch s = .op .lopen ∧ s.x ≠ 0 ∧ t.ls = s.ls ++ [s.pc]) ∨
    (fetch s = .op .lclose ∧ t.ls = s.ls.dropLast)

/-! ## The dispatch loop, faults and cancellation -/

/-- A step runs the decoded instruction (43_control.md section 1): running, no cancellation latched, a cell below
the program length that decodes to `i`. Nothing is added around `exec`. -/
def Obligations.StepRunsDecodedInstruction : Prop :=
  ∀ (s : State) (b : Byte) (i : Instr),
    s.status = .running → s.cancelPending = false → s.pc < s.progLen →
    Memory.read s.imem s.pc = some b → decodeCell b = .op i → step s = exec i s

/-- R102: at or past the end the step halts and changes no register. -/
def Obligations.ImplicitHalt : Prop :=
  ∀ s : State, s.status = .running → s.cancelPending = false → s.progLen ≤ s.pc →
    step s = .next { s with status := .haltedEnd }

/-- A cell that decodes to Invalid faults when it is fetched (60_exceptions.md section 1; decision D8 of the spec). -/
def Obligations.InvalidCellFaults : Prop :=
  ∀ (s : State) (b : Byte),
    s.status = .running → s.cancelPending = false → s.pc < s.progLen →
    Memory.read s.imem s.pc = some b → decodeCell b = .invalid →
    step s = .next { s with status := .faulted, cause := .illegalOpcode }

/-- Faults are precise: a step that enters Faulted writes `STATUS` and `CAUSE` and nothing else
(60_exceptions.md section 2; decision D10 of the spec). -/
def Obligations.FaultsArePrecise : Prop :=
  ∀ s t : State, step s = .next t → s.status ≠ .faulted → t.status = .faulted →
    t = { s with status := .faulted, cause := t.cause } ∧
    t.cause ≠ .none ∧ t.cause ≠ .mismatchedBrackets

/-- A cancellation the host asserts while the engine runs is taken by the very next step, one it asserts while the
engine waits in `.` is taken at once, and each writes nothing but `STATUS` (60_exceptions.md section 1; decision D15
of the spec). Where a latched one meets a waiting `.`, neither a step nor an answer completes the `.`. In any other
status cancel has no effect. That the latch is clear after it and what becomes of the host's placed input are the
model's (logs 5 and 11). -/
def Obligations.CancellationIsTakenAtTheBoundary : Prop :=
  (∀ s : State, s.status = .running →
    ∃ u, hostStep .cancel s = .next u ∧
      step u = .next { s with status := .cancelled, cancelPending := false }) ∧
  (∀ s : State, s.status = .waitInput →
    ∃ t, hostStep .cancel s = .next t ∧ CancelledWaiting s t) ∧
  (∀ (s : State) (a : Answer), s.status = .waitInput → s.cancelPending = true →
    ∃ t, step s = .next t ∧ hostStep (.answer a) s = .next t ∧ CancelledWaiting s t) ∧
  (∀ s : State, s.status ≠ .running → s.status ≠ .waitInput → hostStep .cancel s = .next s)

/-- A terminal status is absorbing: the engine's step leaves the state as it is (log 3), and the only host
action that changes anything is a reset (10_state.md section 4). -/
def Obligations.TerminalStatusIsAbsorbing : Prop :=
  ∀ s : State, s.status.terminal = true →
    step s = .next s ∧
    ∀ (act : HostAction) (t : State), act ≠ .reset → hostStep act s = .next t → t = s

/-- The codes of `STATUS` and `CAUSE` the host reads (10_state.md section 4, 60_exceptions.md section 1; decision
D11 of the spec): all eight status codes are assigned and cause code 7 is never read. -/
def Obligations.StatusAndCauseCodes : Prop :=
  (Status.code .idle, Status.code .running, Status.code .waitInput, Status.code .haltedEnd) =
      ((0 : BitVec 3), (1 : BitVec 3), (2 : BitVec 3), (3 : BitVec 3)) ∧
  (Status.code .haltedExplicit, Status.code .faulted, Status.code .cancelled, Status.code .rejected) =
      ((4 : BitVec 3), (5 : BitVec 3), (6 : BitVec 3), (7 : BitVec 3)) ∧
  (Cause.code .none, Cause.code .mismatchedBrackets, Cause.code .divisionByZero) =
      ((0 : BitVec 3), (1 : BitVec 3), (2 : BitVec 3)) ∧
  (Cause.code .loopStackUnderflow, Cause.code .loopStackOverflow, Cause.code .illegalOpcode,
      Cause.code .loopScanOverrun) =
      ((3 : BitVec 3), (4 : BitVec 3), (5 : BitVec 3), (6 : BitVec 3)) ∧
  ∀ c : Cause, c.code ≠ 7

/-! ## Whole-machine rules -/

/-- The program is immutable during a run: no step of the engine changes instruction memory, the program
length or the parameters (20_memory.md sections 1 and 3). -/
def Obligations.ProgramIsImmutable : Prop :=
  ∀ s t : State, step s = .next t →
    t.imem = s.imem ∧ t.progLen = s.progLen ∧ t.params = s.params

/-- An instruction reads nothing but `X`, `Y`, `PC`, `LS`, the program and the parameters: from two states that
agree on these it ends alike, with the same registers and loop stack, the same events appended, and the same
change of `STATUS` and `CAUSE` (10_state.md sections 4 and 5, 40_alu.md section 1). -/
def Obligations.InstructionsReadOnlyProgramState : Prop :=
  ∀ (i : Instr) (s t : State), SameForProgram s t →
    (∀ r, exec i s = .fault r → exec i t = .fault r) ∧
    ∀ s', exec i s = .next s' →
      ∃ t', exec i t = .next t' ∧ SameForProgram s' t' ∧
        (∀ es, s'.out = s.out ++ es → t'.out = t.out ++ es) ∧
        (s'.status = s.status ∧ t'.status = t.status ∨ s'.status = t'.status) ∧
        (s'.cause = s.cause ∧ t'.cause = t.cause ∨ s'.cause = t'.cause)

/-- What reset leaves (10_state.md section 6): every register, the loop stack, the status registers, the output,
the request count and the latch. The values of `params`, `progLen`, `answers` and `draws` are the model's choice
(logs 1, 2 and 4) and not stated. -/
def Obligations.ResetState : Prop :=
  State.reset.x = 0 ∧ State.reset.y = 0 ∧ State.reset.pc = 0 ∧ State.reset.ls = [] ∧
  State.reset.status = .idle ∧ State.reset.cause = .none ∧ State.reset.out = [] ∧
  State.reset.inCount = 0 ∧ State.reset.cancelPending = false

/-- The host's reset, in any status: the state of 10_state.md section 6, with instruction memory as it was
(70_reset_and_hazards.md section 1; decision D17 of the spec). -/
def Obligations.HostResetFromAnyState : Prop :=
  ∀ s : State, ∃ t, hostStep .reset s = .next t ∧
    t.x = 0 ∧ t.y = 0 ∧ t.pc = 0 ∧ t.ls = [] ∧ t.status = .idle ∧ t.cause = .none ∧ t.out = [] ∧
    t.inCount = 0 ∧ t.cancelPending = false ∧ t.imem = s.imem

/-! ## The Sanitizer and the loader (30_encoding.md section 2, 70_reset_and_hazards.md section 1) -/

/-- R59: a text with equal totals of loop-open and loop-close is accepted, any other fails the check, and the load
then sets `STATUS` and `CAUSE` and writes nothing else. Characters are counted by their code points 123 and 125. -/
def Obligations.SanitizerChecksTotalsOnly : Prop :=
  ∀ t : List Char,
    (t.countP (fun c => c.toNat == 123) = t.countP (fun c => c.toNat == 125) →
      ∃ p, sanitize t = .program p) ∧
    (t.countP (fun c => c.toNat == 123) ≠ t.countP (fun c => c.toNat == 125) →
      sanitize t = .mismatchedBrackets ∧
      ∀ s : State, s.status = .idle →
        hostStep (.load t) s = .next { s with status := .rejected, cause := .mismatchedBrackets })

/-- The output guarantees of the Sanitizer: the opcodes of the text in their order and nothing else, with equal
totals of loop-open and loop-close (30_encoding.md section 2). -/
def Obligations.SanitizerOutput : Prop :=
  ∀ (t : List Char) (p : List Instr), sanitize t = .program p →
    balanced p = true ∧
    (t.filter fun c => (charInstr c).isSome).map charInstr = p.map some ∧
    ∀ (c : Char) (i : Instr), charInstr c = some i ↔ c.toNat = (encode i).toNat

/-- Trimming cannot change the result, whichever characters outside the alphabet count as whitespace, for a line
(30_encoding.md section 2, marked derived there) and for the lines of a file. -/
def Obligations.TrimmingIsImmaterial : Prop :=
  ∀ ws : Char → Bool, (∀ c, ws c = true → charInstr c = none) →
    (∀ t, sanitizeTrimmed ws t = sanitize t) ∧
    ∀ lines : List (List Char), sanitize (fileSource ws lines) = sanitize lines.flatten

/-- Load and start from `Idle`: the program's cells hold the codes of its opcodes from index 0, the length is
`n`, the engine runs, and no register is touched (70_reset_and_hazards.md section 1). -/
def Obligations.LoadStoresTheProgram : Prop :=
  ∀ (s : State) (t : List Char) (p : List Instr),
    s.status = .idle → sanitize t = .program p →
    (∀ m, s.params.imemSize = some m → p.length ≤ m) →
    ∃ u, hostStep (.load t) s = .next u ∧ u.status = .running ∧ u.progLen = p.length ∧
      (∀ k, fetchCell u k = (p[k]?).map encode) ∧
      u.x = s.x ∧ u.y = s.y ∧ u.pc = s.pc ∧ u.ls = s.ls ∧ u.out = s.out ∧ u.cause = s.cause

/-- Outside the table of host interactions the model gives no step: a program longer than `IMEM_SIZE`, a load
that does not start from Idle, an answer to a request that is not open (70_reset_and_hazards.md section 1). -/
def Obligations.HostActionsOutsideTheTable : Prop :=
  (∀ (s : State) (t : List Char) (p : List Instr) (m : Nat),
    s.status = .idle → sanitize t = .program p → s.params.imemSize = some m → m < p.length →
    hostStep (.load t) s = .refused .programTooLong) ∧
  (∀ (s : State) (t : List Char), s.status ≠ .idle →
    hostStep (.load t) s = .refused .hostActionNotEnabled) ∧
  (∀ (s : State) (a : Answer), s.status ≠ .waitInput →
    hostStep (.answer a) s = .refused .hostActionNotEnabled)

/-! ## Invariants -/

/-- The invariant holds at reset, for every choice of parameters that meet their constraints. -/
def Obligations.ResetMeetsInvariant : Prop :=
  ∀ p : Params, p.wf = true → Inv { State.reset with params := p }

/-- Every step of the engine keeps the invariant: canonical loaded memory, `PC <= n`, loop-stack entries that
index loop-opens within the stack's capacity, `CAUSE` in accord with `STATUS`, `PC` at the `.` while the engine
waits, a cancellation latched in a running engine only (10_state.md). -/
def Obligations.StepKeepsInvariant : Prop :=
  ∀ s t : State, Inv s → step s = .next t → Inv t

/-- Every action of the host keeps the invariant (70_reset_and_hazards.md section 1). -/
def Obligations.HostKeepsInvariant : Prop :=
  ∀ (act : HostAction) (s t : State), Inv s → hostStep act s = .next t → Inv t

/-- No step of a machine that meets the invariant stops. The spec gives an enabled step to a Running engine only
(70_reset_and_hazards.md section 2, progress). That a step of a waiting engine, which has no step of its own (42_io.md
section 2), answers a next state is the model's choice (log 4), and so is that a step of an engine in Idle or in a
terminal status answers the same state (log 3). -/
def Obligations.InvariantExcludesStops : Prop :=
  ∀ s : State, Inv s → ∃ t, step s = .next t

/-- 10_state.md section 3, the loop-stack invariant: in a properly nested program `LS` is the list of the loops that
enclose `PC`, outermost first. Every step keeps it, every action of the host but a load keeps it, and loading a
properly nested program that fits, from an Idle state that meets the invariant of the machine, begins with it. -/
def Obligations.StepKeepsNestingInvariant : Prop :=
  (∀ s t : State, NestingInv s → step s = .next t → NestingInv t) ∧
  (∀ (act : HostAction) (s t : State), (∀ src, act ≠ .load src) →
    NestingInv s → hostStep act s = .next t → NestingInv t) ∧
  (∀ (s : State) (src : List Char) (p : List Instr),
    Inv s → s.status = .idle → sanitize src = .program p → NestedProgram p →
    (∀ m, s.params.imemSize = some m → p.length ≤ m) →
    ∃ u, hostStep (.load src) s = .next u ∧ NestingInv u)

/-- The depth of the loop stack is the nesting level of `PC` (10_state.md section 3), so with a capacity of at
least the deepest nesting of the program no step overflows it (43_control.md section 3, marked derived there),
and no step of a properly nested program underflows the stack or overruns the scan (60_exceptions.md section 1). -/
def Obligations.NestedProgramsHaveNoLoopFault : Prop :=
  ∀ s t : State, NestingInv s → step s = .next t →
    s.ls.length + closesIn s 0 s.pc = opensIn s 0 s.pc ∧
    (t.cause = .loopStackUnderflow → s.cause = .loopStackUnderflow) ∧
    (t.cause = .loopScanOverrun → s.cause = .loopScanOverrun) ∧
    ((∀ d, s.params.lsDepth = some d →
        ∀ k, k ≤ s.progLen → opensIn s 0 k ≤ closesIn s 0 k + d) →
      t.cause = .loopStackOverflow → s.cause = .loopStackOverflow)

/-- In a program that is only balanced in count, `LS` is the list of the loops that enclose `PC` and the program is
nested up to `PC` (43_control.md section 3, marked derived there). Every step keeps it, every action of the host but
a load keeps it, and loading any program the Sanitizer accepts, from an Idle state that meets the invariant of the
machine, begins with it. -/
def Obligations.StepKeepsBalancedInvariant : Prop :=
  (∀ s t : State, BalancedInv s → step s = .next t → BalancedInv t) ∧
  (∀ (act : HostAction) (s t : State), (∀ src, act ≠ .load src) →
    BalancedInv s → hostStep act s = .next t → BalancedInv t) ∧
  (∀ (s : State) (src : List Char) (p : List Instr),
    Inv s → s.status = .idle → sanitize src = .program p →
    (∀ m, s.params.imemSize = some m → p.length ≤ m) →
    ∃ u, hostStep (.load src) s = .next u ∧ BalancedInv u)

/-- Every state the engine and the host can reach from reset meets the invariant and holds a program the engine
may assume: every cell decodes and the bracket totals agree (30_encoding.md section 2). -/
def Obligations.ReachableStatesMeetInvariant : Prop :=
  ∀ s : State, Reachable s → Inv s ∧ ProgramOk s

/-- From reset, whatever text is loaded and whatever the host does, no run faults with IllegalOpcode or
LoopScanOverrun (60_exceptions.md section 1, 43_control.md section 3), and none with LoopStackOverflow on an
unbounded stack. -/
def Obligations.ReachableStatesExcludeFaults : Prop :=
  ∀ s : State, Reachable s →
    s.cause ≠ .illegalOpcode ∧ s.cause ≠ .loopScanOverrun ∧
    (s.params.lsDepth = none → s.cause ≠ .loopStackOverflow)
end

