-- ==== Sys2Proof/Laws/Decode.lean ====
section
/-! SUPPORT. The opcode map: no two rows overlap, and the cells of the two brackets are told apart. -/

namespace Sys2Proof

/-- No two rows of the opcode map match the same cell (30_encoding.md R53). -/
theorem opcodeTable_disjoint :
    opcodeTable.Pairwise (fun r q => r.code ≠ q.code ∧ r.mask = 0xFF ∧ q.mask = 0xFF) := by decide

/-- A bracket's cell decodes to that bracket. -/
@[simp] theorem decodeCell_openCell : decodeCell openCell = .op .lopen := by decide

/-- A bracket's cell decodes to that bracket. -/
@[simp] theorem decodeCell_closeCell : decodeCell closeCell = .op .lclose := by decide

/-- The two brackets have different cells. -/
@[simp] theorem openCell_ne_closeCell : openCell ≠ closeCell := by decide

/-- A cell that decodes to loop-open is the loop-open cell. -/
theorem eq_openCell_of_decode : ∀ b : Byte, decodeCell b = .op .lopen → b = openCell := by decide

/-- A cell that decodes to loop-close is the loop-close cell. -/
theorem eq_closeCell_of_decode : ∀ b : Byte, decodeCell b = .op .lclose → b = closeCell := by decide

end Sys2Proof
end

