-- ==== Sys2Proof/Laws/State.lean ====
section
/-! SUPPORT. One lemma per field per update of `State`, each true by `rfl`, so that no later proof unfolds a
record update. -/

namespace Sys2Proof.Machine

/-! ### State.writeX -/

@[simp] theorem State.writeX_x (s : State) (r : Int) : (s.writeX r).x = wrap8 r := rfl
@[simp] theorem State.writeX_y (s : State) (r : Int) : (s.writeX r).y = s.y := rfl
@[simp] theorem State.writeX_pc (s : State) (r : Int) : (s.writeX r).pc = s.pc := rfl
@[simp] theorem State.writeX_ls (s : State) (r : Int) : (s.writeX r).ls = s.ls := rfl
@[simp] theorem State.writeX_status (s : State) (r : Int) : (s.writeX r).status = s.status := rfl
@[simp] theorem State.writeX_cause (s : State) (r : Int) : (s.writeX r).cause = s.cause := rfl
@[simp] theorem State.writeX_out (s : State) (r : Int) : (s.writeX r).out = s.out := rfl
@[simp] theorem State.writeX_inCount (s : State) (r : Int) : (s.writeX r).inCount = s.inCount := rfl
@[simp] theorem State.writeX_cancelPending (s : State) (r : Int) : (s.writeX r).cancelPending = s.cancelPending := rfl
@[simp] theorem State.writeX_imem (s : State) (r : Int) : (s.writeX r).imem = s.imem := rfl
@[simp] theorem State.writeX_progLen (s : State) (r : Int) : (s.writeX r).progLen = s.progLen := rfl
@[simp] theorem State.writeX_params (s : State) (r : Int) : (s.writeX r).params = s.params := rfl
@[simp] theorem State.writeX_answers (s : State) (r : Int) : (s.writeX r).answers = s.answers := rfl
@[simp] theorem State.writeX_draws (s : State) (r : Int) : (s.writeX r).draws = s.draws := rfl

/-! ### State.writeY -/

@[simp] theorem State.writeY_x (s : State) (v : Byte) : (s.writeY v).x = s.x := rfl
@[simp] theorem State.writeY_y (s : State) (v : Byte) : (s.writeY v).y = v := rfl
@[simp] theorem State.writeY_pc (s : State) (v : Byte) : (s.writeY v).pc = s.pc := rfl
@[simp] theorem State.writeY_ls (s : State) (v : Byte) : (s.writeY v).ls = s.ls := rfl
@[simp] theorem State.writeY_status (s : State) (v : Byte) : (s.writeY v).status = s.status := rfl
@[simp] theorem State.writeY_cause (s : State) (v : Byte) : (s.writeY v).cause = s.cause := rfl
@[simp] theorem State.writeY_out (s : State) (v : Byte) : (s.writeY v).out = s.out := rfl
@[simp] theorem State.writeY_inCount (s : State) (v : Byte) : (s.writeY v).inCount = s.inCount := rfl
@[simp] theorem State.writeY_cancelPending (s : State) (v : Byte) : (s.writeY v).cancelPending = s.cancelPending := rfl
@[simp] theorem State.writeY_imem (s : State) (v : Byte) : (s.writeY v).imem = s.imem := rfl
@[simp] theorem State.writeY_progLen (s : State) (v : Byte) : (s.writeY v).progLen = s.progLen := rfl
@[simp] theorem State.writeY_params (s : State) (v : Byte) : (s.writeY v).params = s.params := rfl
@[simp] theorem State.writeY_answers (s : State) (v : Byte) : (s.writeY v).answers = s.answers := rfl
@[simp] theorem State.writeY_draws (s : State) (v : Byte) : (s.writeY v).draws = s.draws := rfl

/-! ### State.jump -/

@[simp] theorem State.jump_x (s : State) (a : Nat) : (s.jump a).x = s.x := rfl
@[simp] theorem State.jump_y (s : State) (a : Nat) : (s.jump a).y = s.y := rfl
@[simp] theorem State.jump_pc (s : State) (a : Nat) : (s.jump a).pc = a := rfl
@[simp] theorem State.jump_ls (s : State) (a : Nat) : (s.jump a).ls = s.ls := rfl
@[simp] theorem State.jump_status (s : State) (a : Nat) : (s.jump a).status = s.status := rfl
@[simp] theorem State.jump_cause (s : State) (a : Nat) : (s.jump a).cause = s.cause := rfl
@[simp] theorem State.jump_out (s : State) (a : Nat) : (s.jump a).out = s.out := rfl
@[simp] theorem State.jump_inCount (s : State) (a : Nat) : (s.jump a).inCount = s.inCount := rfl
@[simp] theorem State.jump_cancelPending (s : State) (a : Nat) : (s.jump a).cancelPending = s.cancelPending := rfl
@[simp] theorem State.jump_imem (s : State) (a : Nat) : (s.jump a).imem = s.imem := rfl
@[simp] theorem State.jump_progLen (s : State) (a : Nat) : (s.jump a).progLen = s.progLen := rfl
@[simp] theorem State.jump_params (s : State) (a : Nat) : (s.jump a).params = s.params := rfl
@[simp] theorem State.jump_answers (s : State) (a : Nat) : (s.jump a).answers = s.answers := rfl
@[simp] theorem State.jump_draws (s : State) (a : Nat) : (s.jump a).draws = s.draws := rfl

/-! ### State.advance -/

@[simp] theorem State.advance_x (s : State) : s.advance.x = s.x := rfl
@[simp] theorem State.advance_y (s : State) : s.advance.y = s.y := rfl
@[simp] theorem State.advance_pc (s : State) : s.advance.pc = s.pc + 1 := rfl
@[simp] theorem State.advance_ls (s : State) : s.advance.ls = s.ls := rfl
@[simp] theorem State.advance_status (s : State) : s.advance.status = s.status := rfl
@[simp] theorem State.advance_cause (s : State) : s.advance.cause = s.cause := rfl
@[simp] theorem State.advance_out (s : State) : s.advance.out = s.out := rfl
@[simp] theorem State.advance_inCount (s : State) : s.advance.inCount = s.inCount := rfl
@[simp] theorem State.advance_cancelPending (s : State) : s.advance.cancelPending = s.cancelPending := rfl
@[simp] theorem State.advance_imem (s : State) : s.advance.imem = s.imem := rfl
@[simp] theorem State.advance_progLen (s : State) : s.advance.progLen = s.progLen := rfl
@[simp] theorem State.advance_params (s : State) : s.advance.params = s.params := rfl
@[simp] theorem State.advance_answers (s : State) : s.advance.answers = s.answers := rfl
@[simp] theorem State.advance_draws (s : State) : s.advance.draws = s.draws := rfl

/-! ### State.setStatus -/

@[simp] theorem State.setStatus_x (s : State) (st : Status) : (s.setStatus st).x = s.x := rfl
@[simp] theorem State.setStatus_y (s : State) (st : Status) : (s.setStatus st).y = s.y := rfl
@[simp] theorem State.setStatus_pc (s : State) (st : Status) : (s.setStatus st).pc = s.pc := rfl
@[simp] theorem State.setStatus_ls (s : State) (st : Status) : (s.setStatus st).ls = s.ls := rfl
@[simp] theorem State.setStatus_status (s : State) (st : Status) : (s.setStatus st).status = st := rfl
@[simp] theorem State.setStatus_cause (s : State) (st : Status) : (s.setStatus st).cause = s.cause := rfl
@[simp] theorem State.setStatus_out (s : State) (st : Status) : (s.setStatus st).out = s.out := rfl
@[simp] theorem State.setStatus_inCount (s : State) (st : Status) : (s.setStatus st).inCount = s.inCount := rfl
@[simp] theorem State.setStatus_cancelPending (s : State) (st : Status) : (s.setStatus st).cancelPending = s.cancelPending := rfl
@[simp] theorem State.setStatus_imem (s : State) (st : Status) : (s.setStatus st).imem = s.imem := rfl
@[simp] theorem State.setStatus_progLen (s : State) (st : Status) : (s.setStatus st).progLen = s.progLen := rfl
@[simp] theorem State.setStatus_params (s : State) (st : Status) : (s.setStatus st).params = s.params := rfl
@[simp] theorem State.setStatus_answers (s : State) (st : Status) : (s.setStatus st).answers = s.answers := rfl
@[simp] theorem State.setStatus_draws (s : State) (st : Status) : (s.setStatus st).draws = s.draws := rfl

/-! ### State.emit -/

@[simp] theorem State.emit_x (s : State) (k : EventKind) (v : Byte) : (s.emit k v).x = s.x := rfl
@[simp] theorem State.emit_y (s : State) (k : EventKind) (v : Byte) : (s.emit k v).y = s.y := rfl
@[simp] theorem State.emit_pc (s : State) (k : EventKind) (v : Byte) : (s.emit k v).pc = s.pc := rfl
@[simp] theorem State.emit_ls (s : State) (k : EventKind) (v : Byte) : (s.emit k v).ls = s.ls := rfl
@[simp] theorem State.emit_status (s : State) (k : EventKind) (v : Byte) : (s.emit k v).status = s.status := rfl
@[simp] theorem State.emit_cause (s : State) (k : EventKind) (v : Byte) : (s.emit k v).cause = s.cause := rfl
@[simp] theorem State.emit_out (s : State) (k : EventKind) (v : Byte) : (s.emit k v).out = s.out ++ [{ kind := k, v := v }] := rfl
@[simp] theorem State.emit_inCount (s : State) (k : EventKind) (v : Byte) : (s.emit k v).inCount = s.inCount := rfl
@[simp] theorem State.emit_cancelPending (s : State) (k : EventKind) (v : Byte) : (s.emit k v).cancelPending = s.cancelPending := rfl
@[simp] theorem State.emit_imem (s : State) (k : EventKind) (v : Byte) : (s.emit k v).imem = s.imem := rfl
@[simp] theorem State.emit_progLen (s : State) (k : EventKind) (v : Byte) : (s.emit k v).progLen = s.progLen := rfl
@[simp] theorem State.emit_params (s : State) (k : EventKind) (v : Byte) : (s.emit k v).params = s.params := rfl
@[simp] theorem State.emit_answers (s : State) (k : EventKind) (v : Byte) : (s.emit k v).answers = s.answers := rfl
@[simp] theorem State.emit_draws (s : State) (k : EventKind) (v : Byte) : (s.emit k v).draws = s.draws := rfl

/-! ### State.requestInput -/

@[simp] theorem State.requestInput_x (s : State) : s.requestInput.x = s.x := rfl
@[simp] theorem State.requestInput_y (s : State) : s.requestInput.y = s.y := rfl
@[simp] theorem State.requestInput_pc (s : State) : s.requestInput.pc = s.pc := rfl
@[simp] theorem State.requestInput_ls (s : State) : s.requestInput.ls = s.ls := rfl
@[simp] theorem State.requestInput_status (s : State) : s.requestInput.status = .waitInput := rfl
@[simp] theorem State.requestInput_cause (s : State) : s.requestInput.cause = s.cause := rfl
@[simp] theorem State.requestInput_out (s : State) : s.requestInput.out = s.out := rfl
@[simp] theorem State.requestInput_inCount (s : State) : s.requestInput.inCount = s.inCount + 1 := rfl
@[simp] theorem State.requestInput_cancelPending (s : State) : s.requestInput.cancelPending = s.cancelPending := rfl
@[simp] theorem State.requestInput_imem (s : State) : s.requestInput.imem = s.imem := rfl
@[simp] theorem State.requestInput_progLen (s : State) : s.requestInput.progLen = s.progLen := rfl
@[simp] theorem State.requestInput_params (s : State) : s.requestInput.params = s.params := rfl
@[simp] theorem State.requestInput_answers (s : State) : s.requestInput.answers = s.answers := rfl
@[simp] theorem State.requestInput_draws (s : State) : s.requestInput.draws = s.draws := rfl

/-! ### State.raised -/

@[simp] theorem State.raised_x (s : State) (c : Cause) : (s.raised c).x = s.x := rfl
@[simp] theorem State.raised_y (s : State) (c : Cause) : (s.raised c).y = s.y := rfl
@[simp] theorem State.raised_pc (s : State) (c : Cause) : (s.raised c).pc = s.pc := rfl
@[simp] theorem State.raised_ls (s : State) (c : Cause) : (s.raised c).ls = s.ls := rfl
@[simp] theorem State.raised_status (s : State) (c : Cause) : (s.raised c).status = .faulted := rfl
@[simp] theorem State.raised_cause (s : State) (c : Cause) : (s.raised c).cause = c := rfl
@[simp] theorem State.raised_out (s : State) (c : Cause) : (s.raised c).out = s.out := rfl
@[simp] theorem State.raised_inCount (s : State) (c : Cause) : (s.raised c).inCount = s.inCount := rfl
@[simp] theorem State.raised_cancelPending (s : State) (c : Cause) : (s.raised c).cancelPending = s.cancelPending := rfl
@[simp] theorem State.raised_imem (s : State) (c : Cause) : (s.raised c).imem = s.imem := rfl
@[simp] theorem State.raised_progLen (s : State) (c : Cause) : (s.raised c).progLen = s.progLen := rfl
@[simp] theorem State.raised_params (s : State) (c : Cause) : (s.raised c).params = s.params := rfl
@[simp] theorem State.raised_answers (s : State) (c : Cause) : (s.raised c).answers = s.answers := rfl
@[simp] theorem State.raised_draws (s : State) (c : Cause) : (s.raised c).draws = s.draws := rfl

/-! ### completeInput -/

@[simp] theorem completeInput_x (s : State) (a : Answer) : (completeInput s a).x = wrap8 (Answer.stored a) := rfl
@[simp] theorem completeInput_y (s : State) (a : Answer) : (completeInput s a).y = s.y := rfl
@[simp] theorem completeInput_pc (s : State) (a : Answer) : (completeInput s a).pc = s.pc + 1 := rfl
@[simp] theorem completeInput_ls (s : State) (a : Answer) : (completeInput s a).ls = s.ls := rfl
@[simp] theorem completeInput_status (s : State) (a : Answer) : (completeInput s a).status = .running := rfl
@[simp] theorem completeInput_cause (s : State) (a : Answer) : (completeInput s a).cause = s.cause := rfl
@[simp] theorem completeInput_out (s : State) (a : Answer) : (completeInput s a).out = s.out := rfl
@[simp] theorem completeInput_inCount (s : State) (a : Answer) : (completeInput s a).inCount = s.inCount := rfl
@[simp] theorem completeInput_cancelPending (s : State) (a : Answer) : (completeInput s a).cancelPending = s.cancelPending := rfl
@[simp] theorem completeInput_imem (s : State) (a : Answer) : (completeInput s a).imem = s.imem := rfl
@[simp] theorem completeInput_progLen (s : State) (a : Answer) : (completeInput s a).progLen = s.progLen := rfl
@[simp] theorem completeInput_params (s : State) (a : Answer) : (completeInput s a).params = s.params := rfl
@[simp] theorem completeInput_answers (s : State) (a : Answer) : (completeInput s a).answers = s.answers := rfl
@[simp] theorem completeInput_draws (s : State) (a : Answer) : (completeInput s a).draws = s.draws := rfl

/-! ### takeCancel -/

@[simp] theorem takeCancel_x (s : State) : (takeCancel s).x = s.x := rfl
@[simp] theorem takeCancel_y (s : State) : (takeCancel s).y = s.y := rfl
@[simp] theorem takeCancel_pc (s : State) : (takeCancel s).pc = s.pc := rfl
@[simp] theorem takeCancel_ls (s : State) : (takeCancel s).ls = s.ls := rfl
@[simp] theorem takeCancel_status (s : State) : (takeCancel s).status = .cancelled := rfl
@[simp] theorem takeCancel_cause (s : State) : (takeCancel s).cause = s.cause := rfl
@[simp] theorem takeCancel_out (s : State) : (takeCancel s).out = s.out := rfl
@[simp] theorem takeCancel_inCount (s : State) : (takeCancel s).inCount = s.inCount := rfl
@[simp] theorem takeCancel_cancelPending (s : State) : (takeCancel s).cancelPending = false := rfl
@[simp] theorem takeCancel_imem (s : State) : (takeCancel s).imem = s.imem := rfl
@[simp] theorem takeCancel_progLen (s : State) : (takeCancel s).progLen = s.progLen := rfl
@[simp] theorem takeCancel_params (s : State) : (takeCancel s).params = s.params := rfl
@[simp] theorem takeCancel_answers (s : State) : (takeCancel s).answers = s.answers := rfl
@[simp] theorem takeCancel_draws (s : State) : (takeCancel s).draws = s.draws := rfl

/-! ### cancelInput -/

@[simp] theorem cancelInput_x (s : State) : (cancelInput s).x = s.x := rfl
@[simp] theorem cancelInput_y (s : State) : (cancelInput s).y = s.y := rfl
@[simp] theorem cancelInput_pc (s : State) : (cancelInput s).pc = s.pc := rfl
@[simp] theorem cancelInput_ls (s : State) : (cancelInput s).ls = s.ls := rfl
@[simp] theorem cancelInput_status (s : State) : (cancelInput s).status = s.status := rfl
@[simp] theorem cancelInput_cause (s : State) : (cancelInput s).cause = s.cause := rfl
@[simp] theorem cancelInput_out (s : State) : (cancelInput s).out = s.out := rfl
@[simp] theorem cancelInput_inCount (s : State) : (cancelInput s).inCount = s.inCount := rfl
@[simp] theorem cancelInput_cancelPending (s : State) : (cancelInput s).cancelPending = s.cancelPending := rfl
@[simp] theorem cancelInput_imem (s : State) : (cancelInput s).imem = s.imem := rfl
@[simp] theorem cancelInput_progLen (s : State) : (cancelInput s).progLen = s.progLen := rfl
@[simp] theorem cancelInput_params (s : State) : (cancelInput s).params = s.params := rfl
@[simp] theorem cancelInput_answers (s : State) : (cancelInput s).answers =
    if Config.cancelConsumes s.draws then s.answers.tail else s.answers := rfl
@[simp] theorem cancelInput_draws (s : State) : (cancelInput s).draws = s.draws + 1 := rfl

/-! ### cancelWaiting -/

@[simp] theorem cancelWaiting_x (s : State) : (cancelWaiting s).x = s.x := rfl
@[simp] theorem cancelWaiting_y (s : State) : (cancelWaiting s).y = s.y := rfl
@[simp] theorem cancelWaiting_pc (s : State) : (cancelWaiting s).pc = s.pc := rfl
@[simp] theorem cancelWaiting_ls (s : State) : (cancelWaiting s).ls = s.ls := rfl
@[simp] theorem cancelWaiting_status (s : State) : (cancelWaiting s).status = .cancelled := rfl
@[simp] theorem cancelWaiting_cause (s : State) : (cancelWaiting s).cause = s.cause := rfl
@[simp] theorem cancelWaiting_out (s : State) : (cancelWaiting s).out = s.out := rfl
@[simp] theorem cancelWaiting_inCount (s : State) : (cancelWaiting s).inCount = s.inCount := rfl
@[simp] theorem cancelWaiting_cancelPending (s : State) : (cancelWaiting s).cancelPending = false := rfl
@[simp] theorem cancelWaiting_imem (s : State) : (cancelWaiting s).imem = s.imem := rfl
@[simp] theorem cancelWaiting_progLen (s : State) : (cancelWaiting s).progLen = s.progLen := rfl
@[simp] theorem cancelWaiting_params (s : State) : (cancelWaiting s).params = s.params := rfl
@[simp] theorem cancelWaiting_answers (s : State) : (cancelWaiting s).answers =
    if Config.cancelConsumes s.draws then s.answers.tail else s.answers := rfl
@[simp] theorem cancelWaiting_draws (s : State) : (cancelWaiting s).draws = s.draws + 1 := rfl

/-! ### rejectLoad -/

@[simp] theorem rejectLoad_x (s : State) : (rejectLoad s).x = s.x := rfl
@[simp] theorem rejectLoad_y (s : State) : (rejectLoad s).y = s.y := rfl
@[simp] theorem rejectLoad_pc (s : State) : (rejectLoad s).pc = s.pc := rfl
@[simp] theorem rejectLoad_ls (s : State) : (rejectLoad s).ls = s.ls := rfl
@[simp] theorem rejectLoad_status (s : State) : (rejectLoad s).status = .rejected := rfl
@[simp] theorem rejectLoad_cause (s : State) : (rejectLoad s).cause = .mismatchedBrackets := rfl
@[simp] theorem rejectLoad_out (s : State) : (rejectLoad s).out = s.out := rfl
@[simp] theorem rejectLoad_inCount (s : State) : (rejectLoad s).inCount = s.inCount := rfl
@[simp] theorem rejectLoad_cancelPending (s : State) : (rejectLoad s).cancelPending = s.cancelPending := rfl
@[simp] theorem rejectLoad_imem (s : State) : (rejectLoad s).imem = s.imem := rfl
@[simp] theorem rejectLoad_progLen (s : State) : (rejectLoad s).progLen = s.progLen := rfl
@[simp] theorem rejectLoad_params (s : State) : (rejectLoad s).params = s.params := rfl
@[simp] theorem rejectLoad_answers (s : State) : (rejectLoad s).answers = s.answers := rfl
@[simp] theorem rejectLoad_draws (s : State) : (rejectLoad s).draws = s.draws := rfl

/-! ### startCells -/

@[simp] theorem startCells_x (s : State) (cells : List Byte) : (startCells s cells).x = s.x := rfl
@[simp] theorem startCells_y (s : State) (cells : List Byte) : (startCells s cells).y = s.y := rfl
@[simp] theorem startCells_pc (s : State) (cells : List Byte) : (startCells s cells).pc = s.pc := rfl
@[simp] theorem startCells_ls (s : State) (cells : List Byte) : (startCells s cells).ls = s.ls := rfl
@[simp] theorem startCells_status (s : State) (cells : List Byte) : (startCells s cells).status = .running := rfl
@[simp] theorem startCells_cause (s : State) (cells : List Byte) : (startCells s cells).cause = s.cause := rfl
@[simp] theorem startCells_out (s : State) (cells : List Byte) : (startCells s cells).out = s.out := rfl
@[simp] theorem startCells_inCount (s : State) (cells : List Byte) : (startCells s cells).inCount = s.inCount := rfl
@[simp] theorem startCells_cancelPending (s : State) (cells : List Byte) : (startCells s cells).cancelPending = s.cancelPending := rfl
@[simp] theorem startCells_imem (s : State) (cells : List Byte) : (startCells s cells).imem = Memory.load s.imem 0 cells := rfl
@[simp] theorem startCells_progLen (s : State) (cells : List Byte) : (startCells s cells).progLen = cells.length := rfl
@[simp] theorem startCells_params (s : State) (cells : List Byte) : (startCells s cells).params = s.params := rfl
@[simp] theorem startCells_answers (s : State) (cells : List Byte) : (startCells s cells).answers = s.answers := rfl
@[simp] theorem startCells_draws (s : State) (cells : List Byte) : (startCells s cells).draws = s.draws := rfl

end Sys2Proof.Machine
end

