-- ==== Sys2Proof/Laws/Exec.lean ====
section
/-! SUPPORT. What each shared operation, each instruction and a step can do, said once. -/

namespace Sys2Proof.Machine

/-! ## Arithmetic -/

/-- `wrap8 a` is `a mod 256` (00_scope.md R8). -/
theorem wrap8_toNat (a : Int) : (wrap8 a).toNat = (a % 256).toNat := by
  simp [wrap8, BitVec.toNat_ofInt]

/-- A value already in range is stored as it is. -/
theorem wrap8_natCast {n : Nat} (h : n < 256) : (wrap8 (n : Int)).toNat = n := by
  rw [wrap8_toNat]; omega

/-- `wrap8` of a natural number is its low 8 bits. -/
theorem wrap8_eq_ofNat (n : Nat) : wrap8 (n : Int) = BitVec.ofNat 8 n := by
  apply BitVec.eq_of_toNat_eq
  rw [wrap8_toNat, BitVec.toNat_ofNat]
  omega

/-- The zero test is a test of `X` (10_state.md R19). -/
@[simp] theorem zeroX_eq_true {s : State} : zeroX s = true ↔ s.x = 0 := by simp [zeroX]

/-- The zero test fails exactly when `X` is not 0. -/
@[simp] theorem zeroX_eq_false {s : State} : zeroX s = false ↔ s.x ≠ 0 := by simp [zeroX]

/-! ## The loop stack -/

/-- A push succeeds exactly when the stack is not full, and appends the entry (00_scope.md R9). -/
theorem push_eq_some {s t : State} {v : Nat} :
    push s v = some t ↔ s.params.lsDepth ≠ some s.ls.length ∧ t = { s with ls := s.ls ++ [v] } := by
  unfold push lsFull
  split
  · rename_i h
    simp only [beq_iff_eq] at h
    simp [h]
  · rename_i h
    simp only [beq_iff_eq] at h
    simp [h, eq_comm]

/-- A push fails exactly when the stack is full (60_exceptions.md R127). -/
theorem push_eq_none {s : State} {v : Nat} :
    push s v = none ↔ s.params.lsDepth = some s.ls.length := by simp [push, lsFull]

/-- A pop fails exactly on the empty stack (60_exceptions.md R126). -/
theorem pop_eq_none {s : State} : pop s = none ↔ s.ls = [] := by
  unfold pop
  split
  · rename_i h
    simpa using h
  · rename_i t h
    simp only [reduceCtorEq, false_iff]
    rintro e
    simp [e] at h

/-- A pop answers the newest entry and removes it (00_scope.md R9). -/
theorem pop_eq_some {s u : State} {t : Nat} :
    pop s = some (t, u) ↔ ∃ l, s.ls = l ++ [t] ∧ u = { s with ls := l } := by
  unfold pop
  rcases List.eq_nil_or_concat s.ls with h | ⟨l, b, h⟩
  · simp [h]
  · simp only [List.concat_eq_append] at h
    simp only [h, List.getLast?_concat, List.dropLast_concat, Option.some.injEq, Prod.mk.injEq]
    constructor
    · rintro ⟨rfl, rfl⟩
      exact ⟨l, rfl, rfl⟩
    · rintro ⟨l', hl, rfl⟩
      obtain ⟨rfl, hb⟩ := List.append_inj' hl rfl
      exact ⟨by simpa using hb, rfl⟩

/-! ## Fetch -/

/-- A fetch below `n` reads the cell (20_memory.md R33). -/
theorem fetchCell_eq_some {s : State} {a : Nat} {b : Byte} :
    fetchCell s a = some b ↔ a < s.progLen ∧ Memory.read s.imem a = some b := by
  simp [fetchCell]

/-- When the fetch at `PC` gives an instruction (43_control.md R100). -/
theorem fetch_eq_op {s : State} {i : Instr} :
    fetch s = .op i ↔ ∃ b, fetchCell s s.pc = some b ∧ decodeCell b = .op i := by
  unfold fetch
  split
  · rename_i h
    simp [fetchCell, Nat.not_lt.2 h]
  · cases h : fetchCell s s.pc with
    | none => simp
    | some b => cases h2 : decodeCell b <;> simp_all

/-- When the fetch at `PC` finds the end of the program (43_control.md R102). -/
theorem fetch_eq_pastEnd {s : State} : fetch s = .pastEnd ↔ s.progLen ≤ s.pc := by
  unfold fetch
  split
  · simp_all
  · cases h : fetchCell s s.pc with
    | none => simp_all
    | some b => cases h2 : decodeCell b <;> simp_all

/-- When the fetch at `PC` finds an Invalid cell (30_encoding.md R54). -/
theorem fetch_eq_invalid {s : State} :
    fetch s = .invalid ↔ ∃ b, fetchCell s s.pc = some b ∧ decodeCell b = .invalid := by
  unfold fetch
  split
  · rename_i h
    simp [fetchCell, Nat.not_lt.2 h]
  · cases h : fetchCell s s.pc with
    | none => simp
    | some b => cases h2 : decodeCell b <;> simp_all

/-- An instruction is fetched below the program length only. -/
theorem pc_lt_of_fetch {s : State} {i : Instr} (h : fetch s = .op i) : s.pc < s.progLen := by
  obtain ⟨b, hb, -⟩ := fetch_eq_op.1 h
  exact (fetchCell_eq_some.1 hb).1

/-- A fetched loop-open is a loop-open cell. -/
theorem fetchCell_of_lopen {s : State} (h : fetch s = .op .lopen) :
    fetchCell s s.pc = some openCell := by
  obtain ⟨b, hb, hd⟩ := fetch_eq_op.1 h
  rw [hb, eq_openCell_of_decode b hd]

/-- A fetched loop-close is a loop-close cell. -/
theorem fetchCell_of_lclose {s : State} (h : fetch s = .op .lclose) :
    fetchCell s s.pc = some closeCell := by
  obtain ⟨b, hb, hd⟩ := fetch_eq_op.1 h
  rw [hb, eq_closeCell_of_decode b hd]

/-- The fetch of a cell depends on the memory and the program length alone. -/
theorem fetchCell_congr {s t : State} (hm : t.imem = s.imem) (hn : t.progLen = s.progLen) (a : Nat) :
    fetchCell t a = fetchCell s a := by simp [fetchCell, hm, hn]

/-- The match of a loop-open depends on the memory and the program length alone (43_control.md R105). -/
theorem matchOf_congr {s t : State} (hm : t.imem = s.imem) (hn : t.progLen = s.progLen) (p : Nat) :
    matchOf t p = matchOf s p := by simp [matchOf, hm, hn]

/-- The fetch at `PC` depends on the memory, the program length and `PC` alone. -/
theorem fetch_congr {s t : State} (hm : t.imem = s.imem) (hn : t.progLen = s.progLen)
    (hp : t.pc = s.pc) : fetch t = fetch s := by
  simp [fetch, hp, hn, fetchCell_congr hm hn]

/-! ## Instructions -/

/-- The instructions that write an arithmetic or copied value to `X`. -/
abbrev Instr.writesX (i : Instr) : Prop :=
  i ∈ [.inc, .dec, .zero, .add, .sub, .mul, .div, .mod, Instr.ldb]

/-- Everything an instruction can do when it gives a next state. -/
inductive ExecEffect (i : Instr) (s : State) : State → Prop where
  | wroteX (r : Int) (hi : Instr.writesX i) : ExecEffect i s (s.writeX r).advance
  | dividedByZero (hi : i = .div ∨ i = .mod) (hy : s.y = 0) :
      ExecEffect i s (s.raised .divisionByZero)
  | wroteY (hi : i = .stb) : ExecEffect i s (s.writeY s.x).advance
  | emitted (k : EventKind) (v : Byte) (hi : i ∈ [.prd, .pra, Instr.dbg]) :
      ExecEffect i s (s.emit k v).advance
  | requested (hi : i = .inp) : ExecEffect i s s.requestInput
  | skipped (m : Nat) (hi : i = .lopen) (hx : s.x = 0) (hm : matchOf s s.pc = .found m) :
      ExecEffect i s (s.jump (m + 1))
  | scanOverran (hi : i = .lopen) (hx : s.x = 0) (hm : matchOf s s.pc = .overrun) :
      ExecEffect i s (s.raised .loopScanOverrun)
  | entered (hi : i = .lopen) (hx : s.x ≠ 0) (hl : s.params.lsDepth ≠ some s.ls.length) :
      ExecEffect i s ({ s with ls := s.ls ++ [s.pc] } : State).advance
  | stackFull (hi : i = .lopen) (hx : s.x ≠ 0) (hl : s.params.lsDepth = some s.ls.length) :
      ExecEffect i s (s.raised .loopStackOverflow)
  | stackEmpty (hi : i = .lclose) (hl : s.ls = []) : ExecEffect i s (s.raised .loopStackUnderflow)
  | exited (l : List Nat) (p : Nat) (hi : i = .lclose) (hl : s.ls = l ++ [p]) (hx : s.x = 0) :
      ExecEffect i s ({ s with ls := l } : State).advance
  | jumpedBack (l : List Nat) (p : Nat) (hi : i = .lclose) (hl : s.ls = l ++ [p]) (hx : s.x ≠ 0) :
      ExecEffect i s (({ s with ls := l } : State).jump p)
  | halted (hi : i = .halt) : ExecEffect i s (s.setStatus .haltedExplicit)

/-- What `/` and `%` can do (40_alu.md R77, R78). -/
theorem retireDivided_effect {i : Instr} {s t : State} {r : Int} (hi : i = .div ∨ i = .mod)
    (h : retireDivided s r = .next t) : ExecEffect i s t := by
  unfold retireDivided at h
  split at h
  · rename_i hy
    obtain rfl : s.raised .divisionByZero = t := Host.Outcome.next.inj h
    exact .dividedByZero hi hy
  · obtain rfl : (s.writeX r).advance = t := Host.Outcome.next.inj h
    exact .wroteX r (by rcases hi with rfl | rfl <;> decide)

/-- What loop-open can do (43_control.md R104). -/
theorem execLopen_effect {s t : State} (h : execLopen s = .next t) : ExecEffect .lopen s t := by
  unfold execLopen at h
  split at h
  · rename_i hz
    have hx := zeroX_eq_true.1 hz
    split at h
    · rename_i m hm
      obtain rfl := Host.Outcome.next.inj h
      exact .skipped m rfl hx hm
    · rename_i hm
      obtain rfl : s.raised _ = t := Host.Outcome.next.inj h
      exact .scanOverran rfl hx hm
    · cases h
  · rename_i hz
    have hx : s.x ≠ 0 := fun e => hz (zeroX_eq_true.2 e)
    split at h
    · rename_i u hu
      obtain ⟨hl, rfl⟩ := push_eq_some.1 hu
      obtain rfl := Host.Outcome.next.inj h
      exact .entered rfl hx hl
    · rename_i hu
      obtain rfl : s.raised _ = t := Host.Outcome.next.inj h
      exact .stackFull rfl hx (push_eq_none.1 hu)

/-- What loop-close can do (43_control.md R106). -/
theorem execLclose_effect {s t : State} (h : execLclose s = .next t) : ExecEffect .lclose s t := by
  unfold execLclose at h
  split at h
  · rename_i hp
    obtain rfl : s.raised _ = t := Host.Outcome.next.inj h
    exact .stackEmpty rfl (pop_eq_none.1 hp)
  · rename_i p u hp
    obtain ⟨l, hl, rfl⟩ := pop_eq_some.1 hp
    split at h
    · rename_i hz
      obtain rfl := Host.Outcome.next.inj h
      exact .exited l p rfl hl (zeroX_eq_true.1 hz)
    · rename_i hz
      obtain rfl := Host.Outcome.next.inj h
      exact .jumpedBack l p rfl hl (fun e => hz (zeroX_eq_true.2 e))

/-- Everything an instruction can do, by instruction (43_control.md R100). -/
theorem exec_effect {i : Instr} {s t : State} (h : exec i s = .next t) : ExecEffect i s t := by
  cases i with
  | div => exact retireDivided_effect (.inl rfl) h
  | mod => exact retireDivided_effect (.inr rfl) h
  | lopen => exact execLopen_effect h
  | lclose => exact execLclose_effect h
  | stb => obtain rfl := Host.Outcome.next.inj h; exact .wroteY rfl
  | prd => obtain rfl := Host.Outcome.next.inj h; exact .emitted _ _ (by decide)
  | pra => obtain rfl := Host.Outcome.next.inj h; exact .emitted _ _ (by decide)
  | dbg => obtain rfl := Host.Outcome.next.inj h; exact .emitted _ _ (by decide)
  | inp => obtain rfl := Host.Outcome.next.inj h; exact .requested rfl
  | halt => obtain rfl := Host.Outcome.next.inj h; exact .halted rfl
  | inc => obtain rfl := Host.Outcome.next.inj h; exact .wroteX _ (by decide)
  | dec => obtain rfl := Host.Outcome.next.inj h; exact .wroteX _ (by decide)
  | zero => obtain rfl := Host.Outcome.next.inj h; exact .wroteX _ (by decide)
  | add => obtain rfl := Host.Outcome.next.inj h; exact .wroteX _ (by decide)
  | sub => obtain rfl := Host.Outcome.next.inj h; exact .wroteX _ (by decide)
  | mul => obtain rfl := Host.Outcome.next.inj h; exact .wroteX _ (by decide)
  | ldb => obtain rfl := Host.Outcome.next.inj h; exact .wroteX _ (by decide)

/-! ## Steps -/

/-- Where the answer of a waiting step comes from, and what stays of the host's input (log 4): the next placed
answer, or with none placed the free draw. -/
inductive AnswerFrom (s : State) : Answer → List Answer → Nat → Prop where
  | placed (a : Answer) (rest : List Answer) (h : s.answers = a :: rest) : AnswerFrom s a rest s.draws
  | drawn (a : Answer) (h : s.answers = []) (hd : Config.hostDraw s.draws = some a) :
      AnswerFrom s a [] (s.draws + 1)

/-- What a step of a waiting engine can do (42_io.md R96, R98): complete on the answer placed or drawn, or wait
on where none is placed and the draw gives none. -/
theorem awaitInput_cases (s : State) :
    (∃ a ans d, AnswerFrom s a ans d ∧
      awaitInput s = completeInput { s with answers := ans, draws := d } a) ∨
    (s.answers = [] ∧ Config.hostDraw s.draws = none ∧
      awaitInput s = { s with draws := s.draws + 1 }) := by
  unfold awaitInput
  split
  · rename_i a rest h
    exact .inl ⟨a, rest, s.draws, .placed a rest h, rfl⟩
  · rename_i h
    split
    · rename_i a hd
      exact .inl ⟨a, [], s.draws + 1, .drawn a h hd, by rw [← h]⟩
    · rename_i hd
      exact .inr ⟨h, hd, rfl⟩

/-- The cancellation of a waiting `.` writes no register (60_exceptions.md R124), whatever becomes of the host's
placed answer (log 11). -/
theorem cancelWaiting_cancelled (s : State) : CancelledWaiting s (cancelWaiting s) where
  state := rfl
  input := by
    rw [cancelWaiting_answers]
    split
    · exact .inr rfl
    · exact .inl rfl

/-- Everything a step of the machine can do when it gives a next state. -/
inductive StepEffect (s : State) : State → Prop where
  | stayed (h : s.status ≠ .running ∧ s.status ≠ .waitInput) : StepEffect s s
  | tookCancel (hs : s.status = .running) (hc : s.cancelPending = true) : StepEffect s (takeCancel s)
  | tookCancelWaiting (hs : s.status = .waitInput) (hc : s.cancelPending = true) :
      StepEffect s (cancelWaiting s)
  | answered (hs : s.status = .waitInput) (hc : s.cancelPending = false) (a : Answer)
      (ans : List Answer) (d : Nat) (hf : AnswerFrom s a ans d) :
      StepEffect s (completeInput { s with answers := ans, draws := d } a)
  | waited (hs : s.status = .waitInput) (hc : s.cancelPending = false) (ha : s.answers = [])
      (hd : Config.hostDraw s.draws = none) : StepEffect s { s with draws := s.draws + 1 }
  | ranOut (hs : s.status = .running) (hc : s.cancelPending = false) (hp : s.progLen ≤ s.pc) :
      StepEffect s (s.setStatus .haltedEnd)
  | fetchedInvalid (hs : s.status = .running) (hc : s.cancelPending = false) (hf : fetch s = .invalid) :
      StepEffect s (s.raised .illegalOpcode)
  | executed (hs : s.status = .running) (hc : s.cancelPending = false) (i : Instr) (t : State)
      (hf : fetch s = .op i) (he : ExecEffect i s t) : StepEffect s t

/-- Everything a step can do (43_control.md R100). -/
theorem step_effect {s t : State} (h : step s = .next t) : StepEffect s t := by
  unfold step at h
  split at h
  · rename_i hs
    split at h
    · rename_i hc
      obtain rfl := Host.Outcome.next.inj h
      exact .tookCancel hs hc
    · rename_i hc
      have hc := Bool.eq_false_iff.2 hc
      unfold stepRunning at h
      split at h
      · rename_i hf
        obtain rfl := Host.Outcome.next.inj h
        exact .ranOut hs hc (fetch_eq_pastEnd.1 hf)
      · cases h
      · rename_i hf
        obtain rfl : s.raised _ = t := Host.Outcome.next.inj h
        exact .fetchedInvalid hs hc hf
      · rename_i i hf
        exact .executed hs hc i t hf (exec_effect h)
  · rename_i hs
    split at h
    · rename_i hc
      obtain rfl := Host.Outcome.next.inj h
      exact .tookCancelWaiting hs hc
    · rename_i hc
      have hc := Bool.eq_false_iff.2 hc
      obtain rfl := Host.Outcome.next.inj h
      rcases awaitInput_cases s with ⟨a, ans, d, hf, e⟩ | ⟨ha, hd, e⟩
      · exact e ▸ .answered hs hc a ans d hf
      · exact e ▸ .waited hs hc ha hd
  all_goals
    rename_i hs
    obtain rfl := Host.Outcome.next.inj h
    exact .stayed (by simp [hs])

/-- No step of the engine changes the program or the parameters (20_memory.md R31). -/
theorem StepEffect.program {s t : State} (h : StepEffect s t) :
    t.imem = s.imem ∧ t.progLen = s.progLen ∧ t.params = s.params := by
  cases h with
  | executed hs hc i t hf he => cases he <;> exact ⟨rfl, rfl, rfl⟩
  | _ => exact ⟨rfl, rfl, rfl⟩

end Sys2Proof.Machine
end

