-- ==== Sys2Proof/Laws/Scan.lean ====
section
/-! SUPPORT. Counting brackets, and what the forward scan of 43_control.md R105 finds. -/

namespace Sys2Proof.Machine

/-! ## Counts over a range of cells -/

/-- The count over a range, split off at its first cell. -/
theorem countP_range'_first (f : Nat → Bool) {lo hi : Nat} (h : lo < hi) :
    (List.range' lo (hi - lo)).countP f =
      (if f lo then 1 else 0) + (List.range' (lo + 1) (hi - (lo + 1))).countP f := by
  obtain ⟨d, rfl⟩ := Nat.exists_eq_add_of_lt h
  have e1 : lo + d + 1 - lo = d + 1 := by omega
  have e2 : lo + d + 1 - (lo + 1) = d := by omega
  rw [e1, e2, List.range'_succ, List.countP_cons]
  omega

/-- The count over a range, split at a cell inside it. -/
theorem countP_range'_split (f : Nat → Bool) {lo mid hi : Nat} (h1 : lo ≤ mid) (h2 : mid ≤ hi) :
    (List.range' lo (hi - lo)).countP f =
      (List.range' lo (mid - lo)).countP f + (List.range' mid (hi - mid)).countP f := by
  have e : hi - lo = (mid - lo) + (hi - mid) := by omega
  rw [e, ← List.range'_append_1, List.countP_append]
  congr 3
  omega

/-- Loop-opens in a range, its first cell apart. -/
theorem opensIn_first (s : State) {lo hi : Nat} (h : lo < hi) :
    opensIn s lo hi = (if cellIs s openCell lo then 1 else 0) + opensIn s (lo + 1) hi :=
  countP_range'_first _ h

/-- Loop-closes in a range, its first cell apart. -/
theorem closesIn_first (s : State) {lo hi : Nat} (h : lo < hi) :
    closesIn s lo hi = (if cellIs s closeCell lo then 1 else 0) + closesIn s (lo + 1) hi :=
  countP_range'_first _ h

/-- Loop-opens in a range, split inside it. -/
theorem opensIn_split (s : State) {lo mid hi : Nat} (h1 : lo ≤ mid) (h2 : mid ≤ hi) :
    opensIn s lo hi = opensIn s lo mid + opensIn s mid hi := countP_range'_split _ h1 h2

/-- Loop-closes in a range, split inside it. -/
theorem closesIn_split (s : State) {lo mid hi : Nat} (h1 : lo ≤ mid) (h2 : mid ≤ hi) :
    closesIn s lo hi = closesIn s lo mid + closesIn s mid hi := countP_range'_split _ h1 h2

/-- No loop-open stands in an empty range. -/
@[simp] theorem opensIn_self (s : State) (lo : Nat) : opensIn s lo lo = 0 := by simp [opensIn]

/-- No loop-close stands in an empty range. -/
@[simp] theorem closesIn_self (s : State) (lo : Nat) : closesIn s lo lo = 0 := by simp [closesIn]

/-- No cell is both brackets. -/
theorem cellIs_open_not_close {s : State} {a : Nat} (h : cellIs s openCell a = true) :
    cellIs s closeCell a = false := by
  simp only [cellIs, beq_iff_eq] at h
  simp [cellIs, h]

/-- What a cell is depends on the memory and the program length alone. -/
theorem cellIs_congr {s t : State} (hm : t.imem = s.imem) (hn : t.progLen = s.progLen) (c : Byte) :
    cellIs t c = cellIs s c := by
  funext a
  simp [cellIs, fetchCell_congr hm hn]

/-- The counts depend on the memory and the program length alone. -/
theorem opensIn_congr {s t : State} (hm : t.imem = s.imem) (hn : t.progLen = s.progLen) (lo hi : Nat) :
    opensIn t lo hi = opensIn s lo hi := by
  simp [opensIn, cellIs_congr hm hn]

/-- The counts depend on the memory and the program length alone. -/
theorem closesIn_congr {s t : State} (hm : t.imem = s.imem) (hn : t.progLen = s.progLen) (lo hi : Nat) :
    closesIn t lo hi = closesIn s lo hi := by
  simp [closesIn, cellIs_congr hm hn]

/-! ## The scan -/

/-- Cell `k` is the first from `j` on at which `depth` more loops were closed than opened. -/
def FirstClose (s : State) (j depth k : Nat) : Prop :=
  j ≤ k ∧ k < s.progLen ∧ closesIn s j (k + 1) = opensIn s j (k + 1) + depth ∧
    ∀ i, j ≤ i → i < k → closesIn s j (i + 1) ≠ opensIn s j (i + 1) + depth

/-- One cell of the scan: unless the scan ends at `j`, it goes on from `j + 1` with the depth adjusted. -/
theorem firstClose_next {s : State} {j d d' k : Nat}
    (hd : ∀ hi, j + 1 ≤ hi → (closesIn s j hi = opensIn s j hi + d ↔
      closesIn s (j + 1) hi = opensIn s (j + 1) hi + d')) (hd' : 1 ≤ d') :
    FirstClose s j d k ↔ FirstClose s (j + 1) d' k := by
  constructor
  · rintro ⟨h1, h2, h3, h4⟩
    have hjk : j ≠ k := by
      rintro rfl
      have := (hd (j + 1) le_rfl).1 h3
      simp at this
      omega
    exact ⟨by omega, h2, (hd _ (by omega)).1 h3, fun i hi hk e =>
      h4 i (by omega) hk ((hd _ (by omega)).2 e)⟩
  · rintro ⟨h1, h2, h3, h4⟩
    refine ⟨by omega, h2, (hd _ (by omega)).2 h3, fun i hi hk e => ?_⟩
    rcases Nat.eq_or_lt_of_le hi with rfl | hlt
    · have := (hd (j + 1) le_rfl).1 e
      simp at this
      omega
    · exact h4 i hlt hk ((hd _ (by omega)).1 e)

/-- What the scan finds from index `j` with `depth` loops to close (43_control.md R105). -/
theorem scanFrom_found {s : State} (hl : Loaded s) {left j depth k : Nat} (hn : j + left = s.progLen)
    (hd : 1 ≤ depth) :
    scanFrom s.imem left j depth = .found k ↔ FirstClose s j depth k := by
  induction left generalizing j depth with
  | zero =>
    simp only [scanFrom, reduceCtorEq, false_iff]
    rintro ⟨h1, h2, -⟩
    omega
  | succ left ih =>
    obtain ⟨b, hb⟩ := Option.isSome_iff_exists.1 (hl j (by omega))
    have hf : fetchCell s j = some b := fetchCell_eq_some.2 ⟨by omega, hb⟩
    simp only [scanFrom, hb]
    split
    · rename_i e
      have ho : cellIs s openCell j = true := by simp [cellIs, hf, e]
      have hc := cellIs_open_not_close ho
      rw [ih (by omega) (by omega)]
      refine (firstClose_next (fun hi hhi => ?_) (by omega)).symm
      rw [opensIn_first s hhi, closesIn_first s hhi]
      simp only [ho, hc, if_true, Bool.false_eq_true, if_false]
      omega
    · rename_i e
      have ho : cellIs s openCell j = false := by simp [cellIs, hf, e]
      split
      · rename_i e2
        have hc : cellIs s closeCell j = true := by simp [cellIs, hf, e2]
        split
        · rename_i hdep
          obtain rfl : depth = 1 := by omega
          have hjj : closesIn s j (j + 1) = opensIn s j (j + 1) + 1 := by
            rw [opensIn_first s (Nat.lt_succ_self j), closesIn_first s (Nat.lt_succ_self j)]
            simp [ho, hc]
          constructor
          · intro h
            cases h
            exact ⟨le_rfl, by omega, hjj, fun i hi hk => by omega⟩
          · rintro ⟨h1, h2, h3, h4⟩
            rcases Nat.eq_or_lt_of_le h1 with rfl | hlt
            · rfl
            · exact absurd hjj (h4 j le_rfl hlt)
        · rename_i hdep
          rw [ih (by omega) (by omega)]
          refine (firstClose_next (fun hi hhi => ?_) (by omega)).symm
          rw [opensIn_first s hhi, closesIn_first s hhi]
          simp only [ho, hc, if_true, Bool.false_eq_true, if_false]
          omega
      · rename_i e2
        have hc : cellIs s closeCell j = false := by simp [cellIs, hf, e2]
        rw [ih (by omega) hd]
        refine (firstClose_next (fun hi hhi => ?_) hd).symm
        rw [opensIn_first s hhi, closesIn_first s hhi]
        simp only [ho, hc, Bool.false_eq_true, if_false]
        omega

/-- On a loaded program the scan reads no cell without a value. -/
theorem scanFrom_ne_unwritten {s : State} (hl : Loaded s) {left j depth k : Nat}
    (hn : j + left = s.progLen) : scanFrom s.imem left j depth ≠ .unwritten k := by
  induction left generalizing j depth with
  | zero => simp [scanFrom]
  | succ left ih =>
    obtain ⟨b, hb⟩ := Option.isSome_iff_exists.1 (hl j (by omega))
    simp only [scanFrom, hb]
    split
    · exact ih (by omega)
    · split
      · split
        · simp
        · exact ih (by omega)
      · exact ih (by omega)

/-- On a loaded program the match of a loop-open is found or the scan overruns. -/
theorem matchOf_ne_unwritten {s : State} (hl : Loaded s) {p k : Nat} (hp : p < s.progLen) :
    matchOf s p ≠ .unwritten k := scanFrom_ne_unwritten hl (by omega)

/-- What the match of a loop-open inside the program is (43_control.md R105). -/
theorem matchOf_found {s : State} (hl : Loaded s) {p j : Nat} (hp : p < s.progLen) :
    matchOf s p = .found j ↔ FirstClose s (p + 1) 1 j :=
  scanFrom_found hl (by omega) le_rfl

end Sys2Proof.Machine
end

