-- ==== Sys2Proof/Laws/Loader.lean ====
section
/-! SUPPORT. What the Sanitizer, the loader and the host's actions do, said once. -/

namespace Sys2Proof.Machine

/-- A character that spells an opcode has a code below 256, and its cell decodes to that opcode. -/
theorem charInstr_eq_some {c : Char} {i : Instr} :
    charInstr c = some i ↔ c.toNat < 256 ∧ decodeCell (BitVec.ofNat 8 c.toNat) = .op i := by
  unfold charInstr
  by_cases hc : c.toNat < 256
  · simp only [hc, if_true, true_and]
    cases decodeCell (BitVec.ofNat 8 c.toNat) <;> simp
  · simp [hc]

/-- What the Sanitizer answers (30_encoding.md R57). -/
theorem sanitize_eq_program {t : List Char} {p : List Instr} :
    sanitize t = .program p ↔ countOpen t = countClose t ∧ p = t.filterMap charInstr := by
  unfold sanitize
  split
  · rename_i h
    simp [h, eq_comm]
  · rename_i h
    simp [h]

/-- A started program's cells are the cells it was started on (70_reset_and_hazards.md R151 step 4). -/
theorem fetchCell_startCells (s : State) (cells : List Byte) (k : Nat) :
    fetchCell (startCells s cells) k = cells[k]? := by
  unfold fetchCell
  by_cases h : k < (startCells s cells).progLen
  · rw [if_pos h]
    have := Memory.read_load s.imem 0 cells h
    simpa using this
  · rw [if_neg h]
    simp at h
    simp [h]

/-- The cells a program started on hold a value each. -/
theorem isSome_read_startCells (s : State) (cells : List Byte) {k : Nat} (h : k < cells.length) :
    (Memory.read (startCells s cells).imem k).isSome = true := by
  have := Memory.read_load s.imem 0 cells h
  simp only [Nat.zero_add] at this
  simp [this, h]

/-- What load and start can do when it gives a next state (70_reset_and_hazards.md R151). -/
theorem loadAndStart_cases {s t : State} {src : List Char} (h : loadAndStart s src = .next t) :
    (sanitize src = .mismatchedBrackets ∧ t = rejectLoad s) ∨
    (∃ p, sanitize src = .program p ∧ fitsImem s.params p.length = true ∧
      t = startCells s (p.map encode)) := by
  unfold loadAndStart at h
  split at h
  · rename_i hp
    exact .inl ⟨hp, (Host.Outcome.next.inj h).symm⟩
  · rename_i p hp
    split at h
    · rename_i hf
      exact .inr ⟨p, hp, hf, (Host.Outcome.next.inj h).symm⟩
    · cases h

/-- Everything an action of the host can do when it gives a next state (70_reset_and_hazards.md R154). -/
theorem hostStep_cases {act : HostAction} {s t : State} (h : hostStep act s = .next t) :
    (act = .reset ∧ t = hostReset s) ∨
    (∃ src, act = .load src ∧ s.status = .idle ∧ loadAndStart s src = .next t) ∨
    (∃ a, act = .answer a ∧ s.status = .waitInput ∧ s.cancelPending = false ∧ t = completeInput s a) ∨
    (s.status = .waitInput ∧ (act = .cancel ∨ s.cancelPending = true) ∧ t = cancelWaiting s) ∨
    (act = .cancel ∧ s.status = .running ∧ t = { s with cancelPending := true }) ∨
    t = s := by
  cases act with
  | reset => exact .inl ⟨rfl, (Host.Outcome.next.inj h).symm⟩
  | consumeOutput => exact .inr (.inr (.inr (.inr (.inr (Host.Outcome.next.inj h).symm))))
  | readStatus => exact .inr (.inr (.inr (.inr (.inr (Host.Outcome.next.inj h).symm))))
  | load src =>
    simp only [hostStep] at h
    split at h
    · rename_i hs
      exact .inr (.inl ⟨src, rfl, hs, h⟩)
    · cases h
  | answer a =>
    simp only [hostStep] at h
    split at h
    · rename_i hs
      have e : hostAnswer s a = t := Host.Outcome.next.inj h
      unfold hostAnswer at e
      split at e
      · rename_i hc
        exact .inr (.inr (.inr (.inl ⟨hs, .inr hc, e.symm⟩)))
      · rename_i hc
        exact .inr (.inr (.inl ⟨a, rfl, hs, Bool.eq_false_iff.2 hc, e.symm⟩))
    · cases h
  | cancel =>
    have e : hostCancel s = t := Host.Outcome.next.inj h
    unfold hostCancel at e
    split at e
    · rename_i hs
      exact .inr (.inr (.inr (.inr (.inl ⟨rfl, hs, e.symm⟩))))
    · rename_i hs
      exact .inr (.inr (.inr (.inl ⟨hs, .inl rfl, e.symm⟩)))
    all_goals exact .inr (.inr (.inr (.inr (.inr e.symm))))

/-! ## The brackets of a loaded program -/

/-- A cell of a started program is the code of `i` exactly where the program has `i`. -/
theorem cellIs_startCells (s : State) (p : List Instr) (i : Instr) (k : Nat) :
    cellIs (startCells s (p.map encode)) (encode i) k = (p[k]? == some i) := by
  have hinj : ∀ j : Instr, encode j = encode i → j = i := by
    intro j
    cases j <;> cases i <;> decide
  simp only [cellIs, fetchCell_startCells, List.getElem?_map]
  cases p[k]? with
  | none => rfl
  | some j =>
    by_cases h : j = i
    · simp [h]
    · have : encode j ≠ encode i := fun e => h (hinj j e)
      simp [h, this]

/-- How many of the first `k` cells of a started program are the code of `i`. -/
theorem countP_startCells (s : State) (p : List Instr) (i : Instr) {k : Nat} (hk : k ≤ p.length) :
    (List.range' 0 k).countP (cellIs (startCells s (p.map encode)) (encode i)) = (p.take k).count i := by
  induction k with
  | zero => simp
  | succ k ih =>
    rw [List.range'_concat, List.countP_append, ih (by omega), List.take_add_one, List.count_append]
    simp only [List.countP_singleton, Nat.zero_add, Nat.one_mul, cellIs_startCells]
    rw [List.getElem?_eq_getElem (by omega)]
    by_cases h : p[k] = i <;> simp [h]

/-- Loop-opens among the first `k` cells of a started program. -/
theorem opensIn_startCells (s : State) (p : List Instr) {k : Nat} (hk : k ≤ p.length) :
    opensIn (startCells s (p.map encode)) 0 k = (p.take k).count .lopen :=
  countP_startCells s p .lopen hk

/-- Loop-closes among the first `k` cells of a started program. -/
theorem closesIn_startCells (s : State) (p : List Instr) {k : Nat} (hk : k ≤ p.length) :
    closesIn (startCells s (p.map encode)) 0 k = (p.take k).count .lclose :=
  countP_startCells s p .lclose hk

end Sys2Proof.Machine
end

