-- ==== Sys2Proof/Laws/Nesting.lean ====
section
/-! SUPPORT. Nesting levels, and how the list of enclosing loops changes from one index to the next (10_state.md
R16, 43_control.md R107). -/

namespace Sys2Proof.Machine

/-- The nesting level before index `k`: loop-opens less loop-closes in the cells below it. -/
def level (s : State) (k : Nat) : Int := (opensIn s 0 k : Int) - closesIn s 0 k

/-- The loop-open at `q` is still open at `p`: the level stays above that of `q` up to `p`. -/
def OpenAcross (s : State) (p q : Nat) : Prop :=
  cellIs s openCell q = true ∧ ∀ k, q < k → k ≤ p → level s q < level s k

/-- A loaded program, balanced in count, whose part up to `p` is nested. -/
structure NestedAt (s : State) (p : Nat) : Prop where
  loaded : Loaded s
  balanced : opensIn s 0 s.progLen = closesIn s 0 s.progLen
  nested : NestedUpTo s p
  bound : p ≤ s.progLen

/-! ## Levels -/

/-- The level rises by one over a loop-open, falls by one over a loop-close, and keeps otherwise. -/
theorem level_succ (s : State) (k : Nat) :
    level s (k + 1) = level s k + (if cellIs s openCell k then 1 else 0)
      - (if cellIs s closeCell k then 1 else 0) := by
  have ho := opensIn_split s (Nat.zero_le k) (Nat.le_succ k)
  have hc := closesIn_split s (Nat.zero_le k) (Nat.le_succ k)
  rw [opensIn_first s (Nat.lt_succ_self k), opensIn_self] at ho
  rw [closesIn_first s (Nat.lt_succ_self k), closesIn_self] at hc
  unfold level
  rw [Nat.succ_eq_add_one] at ho hc
  rw [ho, hc]
  split <;> split <;> push_cast <;> omega

/-- Over a loop-open. -/
theorem level_open {s : State} {k : Nat} (h : cellIs s openCell k = true) :
    level s (k + 1) = level s k + 1 := by
  have := level_succ s k
  simpa [h, cellIs_open_not_close h] using this

/-- Over a loop-close. -/
theorem level_close {s : State} {k : Nat} (h : cellIs s closeCell k = true) :
    level s (k + 1) = level s k - 1 := by
  have ho : cellIs s openCell k = false := by
    by_contra e
    simp only [Bool.not_eq_false] at e
    simp [cellIs_open_not_close e] at h
  have := level_succ s k
  simpa [h, ho] using this

/-- Over any other cell. -/
theorem level_other {s : State} {k : Nat} (h1 : cellIs s openCell k = false)
    (h2 : cellIs s closeCell k = false) : level s (k + 1) = level s k := by
  have := level_succ s k
  simpa [h1, h2] using this

/-- The level moves by at most one a cell. -/
theorem level_step (s : State) (k : Nat) :
    level s k - 1 ≤ level s (k + 1) ∧ level s (k + 1) ≤ level s k + 1 := by
  rw [level_succ]
  split <;> split <;> omega

/-- If the level starts above `v` and ends at `v` or below, some cell takes it to `v` for the first time. -/
theorem level_first_at (s : State) (v : Int) {a b : Nat} (hab : a ≤ b) (ha : v < level s a)
    (hb : level s b ≤ v) :
    ∃ j, a ≤ j ∧ j < b ∧ level s (j + 1) = v ∧ ∀ k, a ≤ k → k ≤ j → v < level s k := by
  induction b, hab using Nat.le_induction with
  | base => omega
  | succ b hab ih =>
    by_cases h : level s b ≤ v
    · obtain ⟨j, h1, h2, h3, h4⟩ := ih h
      exact ⟨j, h1, by omega, h3, h4⟩
    · by_cases hall : ∀ k, a ≤ k → k ≤ b → v < level s k
      · have := level_step s b
        exact ⟨b, hab, by omega, by omega, hall⟩
      · have hex : ∃ k, a ≤ k ∧ k ≤ b ∧ level s k ≤ v := by
          by_contra hno
          exact hall fun k h1 h2 => by
            by_contra h3
            exact hno ⟨k, h1, h2, by omega⟩
        obtain ⟨k, hk1, hk2, hk3⟩ := hex
        classical
        have hex' : ∃ k, a ≤ k ∧ level s k ≤ v := ⟨k, hk1, hk3⟩
        obtain ⟨m1, m2⟩ := Nat.find_spec hex'
        have hmin : ∀ i, a ≤ i → i < Nat.find hex' → v < level s i := fun i h1 h2 => by
          by_contra h3
          exact Nat.find_min hex' h2 ⟨h1, by omega⟩
        have hmk : Nat.find hex' ≤ k := Nat.find_min' hex' ⟨hk1, hk3⟩
        have hne : Nat.find hex' ≠ a := by
          intro e
          rw [e] at m2
          omega
        obtain ⟨j, hj⟩ : ∃ j, Nat.find hex' = j + 1 := ⟨Nat.find hex' - 1, by omega⟩
        rw [hj] at m1 m2 hmin hmk hne
        refine ⟨j, by omega, by omega, ?_, fun i h1 h2 => hmin i h1 (by omega)⟩
        have := level_step s j
        have := hmin j (by omega) (by omega)
        omega

/-! ## The match of a loop-open, by levels -/

/-- Where the scan from a loop-open ends, by levels: the level first comes back to that of the loop-open. -/
theorem firstClose_iff_level {s : State} {p j : Nat} (ho : cellIs s openCell p = true) :
    FirstClose s (p + 1) 1 j ↔
      p < j ∧ j < s.progLen ∧ level s (j + 1) = level s p ∧
        ∀ k, p < k → k ≤ j → level s p < level s k := by
  have key : ∀ k, p < k → (closesIn s (p + 1) (k + 1) = opensIn s (p + 1) (k + 1) + 1 ↔
      level s (k + 1) = level s p) := by
    intro k hk
    have h1 := level_open ho
    have h2 := opensIn_split s (Nat.zero_le (p + 1)) (show p + 1 ≤ k + 1 by omega)
    have h3 := closesIn_split s (Nat.zero_le (p + 1)) (show p + 1 ≤ k + 1 by omega)
    unfold level at h1 ⊢
    omega
  constructor
  · rintro ⟨h1, h2, h3, h4⟩
    refine ⟨h1, h2, (key j h1).1 h3, fun k hk hkj => ?_⟩
    by_contra hle
    have hlo := level_open ho
    obtain ⟨i, i1, i2, i3, i4⟩ := level_first_at s (level s p) (a := p + 1) (b := k) hk
      (by omega) (by omega)
    rcases Nat.eq_or_lt_of_le i1 with rfl | hlt
    · exact h4 (p + 1) le_rfl (by omega) ((key _ (by omega)).2 i3)
    · exact h4 i i1 (by omega) ((key i (by omega)).2 i3)
  · rintro ⟨h1, h2, h3, h4⟩
    refine ⟨h1, h2, (key j h1).2 h3, fun i hi hij e => ?_⟩
    have := (key i hi).1 e
    have := h4 (i + 1) (by omega) (by omega)
    omega

/-- A loop-open inside the nested part of a balanced program has its match. -/
theorem NestedAt.match_exists {s : State} {p : Nat} (h : NestedAt s p) {q : Nat} (hq : q ≤ p)
    (ho : cellIs s openCell q = true) : ∃ m, matchOf s q = .found m := by
  have hqn : q < s.progLen := by
    simp only [cellIs, beq_iff_eq] at ho
    exact (fetchCell_eq_some.1 ho).1
  have h0 : closesIn s 0 q ≤ opensIn s 0 q := h.nested q (by omega)
  have hb := h.balanced
  have hlo := level_open ho
  obtain ⟨j, h1, h2, h3, h4⟩ := level_first_at s (level s q) (a := q + 1) (b := s.progLen) hqn
    (by omega) (by unfold level; omega)
  have hj : q < j := by omega
  exact ⟨j, (matchOf_found h.loaded hqn).2
    ((firstClose_iff_level ho).2 ⟨hj, h2, h3, fun k hk hkj => h4 k hk hkj⟩)⟩

/-- In the nested part of a balanced program, a loop encloses `p` exactly when it is still open at `p`. -/
theorem NestedAt.encloses_iff {s : State} {p q : Nat} (h : NestedAt s p) (hq : q < p) :
    encloses s p q = true ↔ OpenAcross s p q := by
  unfold encloses OpenAcross
  rw [Bool.and_eq_true]
  refine and_congr_right fun ho => ?_
  obtain ⟨m, hm⟩ := h.match_exists hq.le ho
  have hb := h.bound
  obtain ⟨m1, m2, m3, m4⟩ := (firstClose_iff_level ho).1 ((matchOf_found h.loaded (by omega)).1 hm)
  simp only [hm, decide_eq_true_eq]
  constructor
  · intro hpm k hk hkp
    exact m4 k hk (by omega)
  · intro hall
    by_contra hlt
    have := hall (m + 1) (by omega) (by omega)
    omega

/-! ## The list of enclosing loops -/

/-- The list of enclosing loops, from the loops still open. -/
theorem NestedAt.enclosing_eq {s : State} {p : Nat} (h : NestedAt s p) (f : Nat → Bool)
    (hf : ∀ q, q < p → (f q = true ↔ OpenAcross s p q)) :
    enclosingLoops s p = (List.range p).filter f := by
  unfold enclosingLoops
  refine List.filter_congr fun q hq => ?_
  have hq := List.mem_range.1 hq
  rw [Bool.eq_iff_iff, h.encloses_iff hq, hf q hq]

/-- The nested part of a program reaches one cell further unless that cell is a stray loop-close. -/
theorem NestedAt.succ {s : State} {p : Nat} (h : NestedAt s p) (hp : p < s.progLen)
    (hl : 0 ≤ level s (p + 1)) : NestedAt s (p + 1) where
  loaded := h.loaded
  balanced := h.balanced
  bound := hp
  nested := by
    intro k hk
    rcases Nat.eq_or_lt_of_le (Nat.lt_succ_iff.1 hk) with rfl | hlt
    · unfold level at hl
      omega
    · exact h.nested k hlt

/-- The nested part of a program up to an earlier index. -/
theorem NestedAt.mono {s : State} {p q : Nat} (h : NestedAt s p) (hq : q ≤ p) : NestedAt s q where
  loaded := h.loaded
  balanced := h.balanced
  bound := hq.trans h.bound
  nested := fun k hk => h.nested k (by omega)

/-- No level of the nested part is negative. -/
theorem NestedAt.level_nonneg {s : State} {p k : Nat} (h : NestedAt s p) (hk : k ≤ p) :
    0 ≤ level s k := by
  have := h.nested k (by omega)
  unfold level
  omega

/-- Over a cell that is no bracket the enclosing loops stay. -/
theorem NestedAt.enclosing_other {s : State} {p : Nat} (h : NestedAt s p) (hp : p < s.progLen)
    (h1 : cellIs s openCell p = false) (h2 : cellIs s closeCell p = false) :
    NestedAt s (p + 1) ∧ enclosingLoops s (p + 1) = enclosingLoops s p := by
  have hlev := level_other h1 h2
  have h' := h.succ hp (hlev ▸ h.level_nonneg le_rfl)
  refine ⟨h', ?_⟩
  rw [h'.enclosing_eq (fun q => encloses s p q && decide (q < p)) ?_, List.range_succ,
    List.filter_append]
  · simp only [List.filter_cons, lt_irrefl, decide_false, Bool.and_false, List.filter_nil,
      List.append_nil, Bool.false_eq_true, if_false]
    refine List.filter_congr fun q hq => ?_
    simp [List.mem_range.1 hq]
  · intro q hq
    rcases Nat.eq_or_lt_of_le (Nat.lt_succ_iff.1 hq) with rfl | hlt
    · simp [OpenAcross, h1]
    · simp only [hlt, decide_true, Bool.and_true, h.encloses_iff hlt, OpenAcross]
      refine and_congr_right fun _ => ⟨fun hall k hk hkp => ?_, fun hall k hk hkp => hall k hk (by omega)⟩
      rcases Nat.eq_or_lt_of_le hkp with rfl | hk2
      · rw [hlev]
        exact hall p hlt le_rfl
      · exact hall k hk (by omega)

/-- Over a loop-open that loop is added. -/
theorem NestedAt.enclosing_open {s : State} {p : Nat} (h : NestedAt s p)
    (ho : cellIs s openCell p = true) (hp : p < s.progLen) :
    NestedAt s (p + 1) ∧ enclosingLoops s (p + 1) = enclosingLoops s p ++ [p] := by
  have hlev := level_open ho
  have hnn := h.level_nonneg (le_refl p)
  have h' := h.succ hp (by omega)
  refine ⟨h', ?_⟩
  rw [h'.enclosing_eq (fun q => decide (q = p) || encloses s p q) ?_, List.range_succ,
    List.filter_append]
  · simp only [List.filter_cons, decide_true, Bool.true_or, List.filter_nil, if_true]
    congr 1
    refine List.filter_congr fun q hq => ?_
    simp [(List.mem_range.1 hq).ne]
  · intro q hq
    rcases Nat.eq_or_lt_of_le (Nat.lt_succ_iff.1 hq) with rfl | hlt
    · simp only [decide_true, Bool.true_or, OpenAcross, ho, true_and, true_iff]
      intro k h1 h2
      obtain rfl : k = q + 1 := by omega
      omega
    · simp only [hlt.ne, decide_false, Bool.false_or, h.encloses_iff hlt, OpenAcross]
      refine and_congr_right fun _ => ⟨fun hall k hk hkp => ?_, fun hall k hk hkp => hall k hk (by omega)⟩
      rcases Nat.eq_or_lt_of_le hkp with rfl | hk2
      · have := hall p hlt le_rfl
        omega
      · exact hall k hk (by omega)

/-- The level of the last enclosing loop is one below the level of `p`. -/
theorem NestedAt.level_last {s : State} {p t : Nat} {l : List Nat} (h : NestedAt s p)
    (he : enclosingLoops s p = l ++ [t]) :
    t < p ∧ OpenAcross s p t ∧ level s t = level s p - 1 ∧
      l = (List.range t).filter (encloses s p) := by
  have ht : t ∈ enclosingLoops s p := by simp [he]
  obtain ⟨ht1, ht2⟩ := List.mem_filter.1 ht
  have htp := List.mem_range.1 ht1
  have hoa := (h.encloses_iff htp).1 ht2
  -- no enclosing loop stands after `t`
  have hpw : (l ++ [t]).Pairwise (· < ·) := by
    rw [← he]
    exact List.Pairwise.filter _ (List.pairwise_lt_range)
  have hlt : ∀ q ∈ l, q < t := fun q hq => (List.pairwise_append.1 hpw).2.2 q hq t (by simp)
  have hlast : ∀ q, q < p → OpenAcross s p q → q ≤ t := by
    intro q hq ho
    have : q ∈ enclosingLoops s p :=
      List.mem_filter.2 ⟨List.mem_range.2 hq, (h.encloses_iff hq).2 ho⟩
    rw [he, List.mem_append, List.mem_singleton] at this
    rcases this with hql | rfl
    · exact (hlt q hql).le
    · exact le_rfl
  refine ⟨htp, hoa, ?_, ?_⟩
  · have hle : level s t ≤ level s p - 1 := by
      have := hoa.2 p htp le_rfl
      omega
    rcases lt_or_eq_of_le hle with hlow | heq
    · -- the last index below `p` whose level is below that of `p` is a later open loop
      exfalso
      classical
      have hlo := level_open hoa.1
      -- the greatest `q < p` with `level q < level p`
      have hP : ∃ n, n ≤ p ∧ level s (p - n) < level s p := ⟨p - t, by omega, by
        rw [Nat.sub_sub_self htp.le]
        omega⟩
      obtain ⟨n1, n2⟩ := Nat.find_spec hP
      have hmin : ∀ i, i < Nat.find hP → level s p ≤ level s (p - i) := fun i hi => by
        by_contra hc
        exact Nat.find_min hP hi ⟨by omega, by omega⟩
      have hn0 : Nat.find hP ≠ 0 := by
        intro e
        rw [e] at n2
        simp at n2
      obtain ⟨q, hq⟩ : ∃ q, q = p - Nat.find hP := ⟨_, rfl⟩
      have hqp : q < p := by omega
      rw [← hq] at n2
      have habove : ∀ k, q < k → k ≤ p → level s p ≤ level s k := by
        intro k h1 h2
        have := hmin (p - k) (by omega)
        rwa [Nat.sub_sub_self h2] at this
      have hq1 := habove (q + 1) (by omega) hqp
      have hqo : cellIs s openCell q = true := by
        by_contra hno
        have hsucc := level_succ s q
        simp only [Bool.not_eq_true] at hno
        rw [hno] at hsucc
        simp only [Bool.false_eq_true, if_false] at hsucc
        split at hsucc <;> omega
      have hstep := level_step s q
      have hqt := hlast q hqp ⟨hqo, fun k h1 h2 => lt_of_lt_of_le n2 (habove k h1 h2)⟩
      have htq : t ≤ q := by
        by_contra hlt'
        have := habove t (by omega) htp.le
        omega
      obtain rfl : q = t := le_antisymm hqt htq
      omega
    · exact heq
  · have : l = (l ++ [t]).filter (fun q => decide (q < t)) := by
      rw [List.filter_append, List.filter_eq_self.2 (fun q hq => by simpa using hlt q hq)]
      simp
    rw [this, ← he, enclosingLoops, List.filter_filter]
    obtain ⟨d, rfl⟩ := Nat.exists_eq_add_of_le htp.le
    rw [List.range_add, List.filter_append]
    have h2 : List.filter (fun a => decide (a < t) && encloses s (t + d) a)
        (List.map (fun x => t + x) (List.range d)) = [] := by
      simp
    rw [h2, List.append_nil]
    refine List.filter_congr fun q hq => ?_
    simp [List.mem_range.1 hq]

/-- Over the loop-close of the last enclosing loop, that loop is taken off. -/
theorem NestedAt.enclosing_close {s : State} {p t : Nat} {l : List Nat} (h : NestedAt s p)
    (hc : cellIs s closeCell p = true) (hp : p < s.progLen) (he : enclosingLoops s p = l ++ [t]) :
    NestedAt s (p + 1) ∧ enclosingLoops s (p + 1) = l := by
  obtain ⟨htp, hoa, hlt, hl⟩ := h.level_last he
  have hlev := level_close hc
  have htn := h.level_nonneg htp.le
  have h' := h.succ hp (by omega)
  refine ⟨h', ?_⟩
  have hopen : cellIs s openCell p = false := by
    by_contra e
    simp only [Bool.not_eq_false] at e
    simp [cellIs_open_not_close e] at hc
  have hmem : ∀ q, q ∈ l → level s q < level s t := by
    intro q hq
    rw [hl] at hq
    obtain ⟨q1, q2⟩ := List.mem_filter.1 hq
    have q1 := List.mem_range.1 q1
    exact ((h.encloses_iff (by omega)).1 q2).2 t q1 htp.le
  rw [h'.enclosing_eq (fun q => decide (q < t) && encloses s p q) ?_, hl]
  · have e : p + 1 = t + (p + 1 - t) := by omega
    rw [e, List.range_add, List.filter_append]
    have h2 : List.filter (fun q => decide (q < t) && encloses s p q)
        (List.map (fun x => t + x) (List.range (p + 1 - t))) = [] := by
      simp
    rw [h2, List.append_nil]
    refine List.filter_congr fun q hq => ?_
    simp [List.mem_range.1 hq]
  · intro q hq
    rw [Bool.and_eq_true, decide_eq_true_eq]
    constructor
    · rintro ⟨hqt, hen⟩
      have ho := (h.encloses_iff (by omega)).1 hen
      refine ⟨ho.1, fun k hk hkp => ?_⟩
      rcases Nat.eq_or_lt_of_le hkp with rfl | hk2
      · have := ho.2 t hqt htp.le
        omega
      · exact ho.2 k hk (by omega)
    · intro ho
      have hqp : q ≠ p := by
        rintro rfl
        exact absurd ho.1 (by simp [hopen])
      have hq' : q < p := by omega
      have hen : OpenAcross s p q := ⟨ho.1, fun k hk hkp => ho.2 k hk (by omega)⟩
      refine ⟨?_, (h.encloses_iff hq').2 hen⟩
      have hmemq : q ∈ l ++ [t] := by
        rw [← he]
        exact List.mem_filter.2 ⟨List.mem_range.2 hq', (h.encloses_iff hq').2 hen⟩
      rcases List.mem_append.1 hmemq with hql | hqt
      · rw [hl] at hql
        exact List.mem_range.1 (List.mem_filter.1 hql).1
      · obtain rfl : q = t := by simpa using hqt
        have := ho.2 (p + 1) (by omega) le_rfl
        omega

/-- At the last enclosing loop's own loop-open, that loop does not enclose. -/
theorem NestedAt.enclosing_back {s : State} {p t : Nat} {l : List Nat} (h : NestedAt s p)
    (he : enclosingLoops s p = l ++ [t]) : NestedAt s t ∧ enclosingLoops s t = l := by
  obtain ⟨htp, hoa, hlt, hl⟩ := h.level_last he
  have h' := h.mono htp.le
  refine ⟨h', ?_⟩
  rw [h'.enclosing_eq (encloses s p) ?_, hl]
  intro q hq
  rw [h.encloses_iff (by omega)]
  refine ⟨fun ho => ⟨ho.1, fun k hk hkp => ho.2 k hk (by omega)⟩, fun ho => ⟨ho.1, fun k hk hkp => ?_⟩⟩
  rcases Nat.lt_or_ge t k with htk | hkt
  · exact lt_trans (ho.2 t hq le_rfl) (hoa.2 k htk hkp)
  · exact ho.2 k hk hkt

/-- Past the match of a loop-open the enclosing loops are those at the loop-open. -/
theorem NestedAt.enclosing_skip {s : State} {p m : Nat} (h : NestedAt s p)
    (ho : cellIs s openCell p = true) (hp : p < s.progLen) (hm : matchOf s p = .found m) :
    m < s.progLen ∧ NestedAt s (m + 1) ∧ enclosingLoops s (m + 1) = enclosingLoops s p := by
  obtain ⟨m1, m2, m3, m4⟩ := (firstClose_iff_level ho).1 ((matchOf_found h.loaded hp).1 hm)
  have hpn := h.level_nonneg (le_refl p)
  have h' : NestedAt s (m + 1) :=
    { loaded := h.loaded
      balanced := h.balanced
      bound := m2
      nested := by
        intro k hk
        have hk0 : 0 ≤ level s k := by
          rcases Nat.lt_or_ge p k with h1 | h1
          · rcases Nat.eq_or_lt_of_le (Nat.lt_succ_iff.1 hk) with rfl | h2
            · omega
            · exact (hpn.trans_lt (m4 k h1 (by omega))).le
          · exact h.level_nonneg h1
        unfold level at hk0
        omega }
  refine ⟨m2, h', ?_⟩
  rw [h'.enclosing_eq (fun q => decide (q < p) && encloses s p q) ?_]
  · have e : m + 1 = p + (m + 1 - p) := by omega
    rw [e, List.range_add, List.filter_append]
    have h2 : List.filter (fun q => decide (q < p) && encloses s p q)
        (List.map (fun x => p + x) (List.range (m + 1 - p))) = [] := by
      simp
    rw [h2, List.append_nil]
    refine List.filter_congr fun q hq => ?_
    simp [List.mem_range.1 hq]
  · intro q hq
    rw [Bool.and_eq_true, decide_eq_true_eq]
    constructor
    · rintro ⟨hqp, hen⟩
      have hoq := (h.encloses_iff hqp).1 hen
      refine ⟨hoq.1, fun k hk hkm => ?_⟩
      have hq' := hoq.2 p hqp le_rfl
      rcases Nat.lt_or_ge p k with h1 | h1
      · rcases Nat.eq_or_lt_of_le hkm with rfl | h2
        · omega
        · exact lt_trans hq' (m4 k h1 (by omega))
      · exact hoq.2 k hk h1
    · intro hoq
      have hend := hoq.2 (m + 1) hq le_rfl
      have hqp : q < p := by
        by_contra hge
        rcases Nat.eq_or_lt_of_le (Nat.le_of_not_lt hge) with rfl | h1
        · omega
        · have := m4 q h1 (by omega)
          omega
      exact ⟨hqp, (h.encloses_iff hqp).2 ⟨hoq.1, fun k hk hkp => hoq.2 k hk (by omega)⟩⟩

/-- The number of enclosing loops is the nesting level. -/
theorem NestedAt.length_enclosing {s : State} {p : Nat} (h : NestedAt s p) :
    ((enclosingLoops s p).length : Int) = level s p := by
  induction p with
  | zero => simp [enclosingLoops, level, opensIn, closesIn]
  | succ p ih =>
    have h0 := h.mono (Nat.le_succ p)
    have hp : p < s.progLen := h.bound
    have ih := ih h0
    cases ho : cellIs s openCell p with
    | true =>
      rw [(h0.enclosing_open ho hp).2, level_open ho, ← ih]
      simp
    | false =>
      cases hc : cellIs s closeCell p with
      | false => rw [(h0.enclosing_other hp ho hc).2, level_other ho hc, ih]
      | true =>
        have hn := h.level_nonneg (le_refl (p + 1))
        have hlev := level_close hc
        rcases List.eq_nil_or_concat (enclosingLoops s p) with he | ⟨l, t, he⟩
        · rw [he] at ih
          simp at ih
          omega
        · rw [List.concat_eq_append] at he
          rw [(h0.enclosing_close hc hp he).2, hlev, ← ih, he]
          simp

end Sys2Proof.Machine
end

