-- ==== Sys2Proof/Laws/PerInstr.lean ====
section
/-! SUPPORT. Statements made per instruction, one lemma per constructor. -/

namespace Sys2Proof.Laws.TableRow

/-- The instruction has exactly one row in the opcode map, and its encoding matches that row's pattern
(30_encoding.md R52). -/
def Statement (i : Instr) : Prop :=
  opcodeTable.filter (fun r => r.instr == i) = [{ code := encode i, mask := 0xFF, instr := i }]

theorem inc : Statement .inc := by unfold Statement; decide
theorem dec : Statement .dec := by unfold Statement; decide
theorem zero : Statement .zero := by unfold Statement; decide
theorem add : Statement .add := by unfold Statement; decide
theorem sub : Statement .sub := by unfold Statement; decide
theorem mul : Statement .mul := by unfold Statement; decide
theorem div : Statement .div := by unfold Statement; decide
theorem mod : Statement .mod := by unfold Statement; decide
theorem stb : Statement .stb := by unfold Statement; decide
theorem ldb : Statement .ldb := by unfold Statement; decide
theorem prd : Statement .prd := by unfold Statement; decide
theorem pra : Statement .pra := by unfold Statement; decide
theorem inp : Statement .inp := by unfold Statement; decide
theorem lopen : Statement .lopen := by unfold Statement; decide
theorem lclose : Statement .lclose := by unfold Statement; decide
theorem halt : Statement .halt := by unfold Statement; decide
theorem dbg : Statement .dbg := by unfold Statement; decide

end Sys2Proof.Laws.TableRow
end

