-- ==== Sys2Proof/Laws/Place.lean ====
section
/-! SUPPORT. Placing an instruction where the next step fetches it. -/

namespace Sys2Proof.Machine

/-- The cell placed is the one the next step fetches. -/
theorem fetchCell_withFetchWord (s : State) (nbits w : Nat) :
    fetchCell (s.withFetchWord nbits w) (s.withFetchWord nbits w).pc = some (tableCell nbits w) := by
  rw [fetchCell_eq_some]
  refine ⟨?_, Memory.read_write_same _ _ _⟩
  show s.pc < max s.progLen (s.pc + 1)
  omega

/-- The next step runs exactly the instruction placed. -/
theorem step_withFetchWord (s : State) {nbits w : Nat} {i : Instr}
    (h : decodeCell (tableCell nbits w) = .op i) :
    step (s.withFetchWord nbits w) = exec i (s.withFetchWord nbits w) := by
  have hf : fetch (s.withFetchWord nbits w) = .op i :=
    fetch_eq_op.2 ⟨_, fetchCell_withFetchWord s nbits w, h⟩
  have hs : (s.withFetchWord nbits w).status = .running := rfl
  have hc : (s.withFetchWord nbits w).cancelPending = false := rfl
  simp [step, stepRunning, hs, hc, hf]

/-- Placing an instruction keeps memory in its canonical form. -/
theorem withFetchWord_wf {s : State} (h : Memory.wf s.imem) (nbits w : Nat) :
    Memory.wf (s.withFetchWord nbits w).imem := Memory.wf_write h _ _

end Sys2Proof.Machine
end

