-- ==== Sys2Proof/Tests/Slice0.lean ====
section
/-! SUPPORT. Tests of the model against 95_test_vectors.md and the encodings of 30_encoding.md R52, and for
each statement with hypotheses a witness that meets them together. -/

namespace Sys2Proof.Tests

open Sys2Proof.Machine

/-! ## Helpers -/

/-- A running engine on the program given, `X` and `Y` as given, everything else as after load and start. -/
def on (cells : List Byte) (x y : Byte) : State :=
  { startCells State.reset cells with x := x, y := y }

/-- The same with `PC` and the loop stack given. -/
def at' (cells : List Byte) (x : Byte) (pc : Nat) (ls : List Nat) : State :=
  { on cells x 0 with pc := pc, ls := ls }

/-- An engine that waits at the `.` of the one-cell program, with the answers placed. -/
def waitingOn (answers : List Answer) : State :=
  { on [0x2E] 99 5 with status := .waitInput, inCount := 1, answers := answers }

/-- The next state of an outcome, if it is one. -/
def nextOf : Host.Outcome State Fault Refusal → Option State
  | .next s => some s
  | .fault _ => none
  | .refused _ => none

/-- `X`, `Y` and `PC` of the next state. -/
def regs (o : Host.Outcome State Fault Refusal) : Option (Byte × Byte × Nat) :=
  (nextOf o).map fun t => (t.x, t.y, t.pc)

/-- `PC`, `LS`, `STATUS` and `CAUSE` of the next state. -/
def control (o : Host.Outcome State Fault Refusal) : Option (Nat × List Nat × Status × Cause) :=
  (nextOf o).map fun t => (t.pc, t.ls, t.status, t.cause)

/-! ## Well-formedness: an ill-formed term for each check -/

theorem test_wf_unbalanced_program_refused : balanced [.lopen, .inc] = false := by decide
theorem test_wf_balanced_not_nested_accepted : balanced [.lclose, .lopen] = true := by decide
theorem test_wf_pc_width_zero_refused :
    ({ pcWidth := some 0, imemSize := some 0, lsDepth := none } : Params).wf = false := by decide
theorem test_wf_imem_too_large_refused :
    ({ pcWidth := some 2, imemSize := some 4, lsDepth := none } : Params).wf = false := by decide
theorem test_wf_unbounded_imem_needs_unbounded_pc :
    ({ pcWidth := some 8, imemSize := none, lsDepth := none } : Params).wf = false := by decide
theorem test_wf_ls_depth_zero_refused :
    ({ pcWidth := none, imemSize := none, lsDepth := some 0 } : Params).wf = false := by decide
theorem test_wf_imem_fits : ({ pcWidth := some 2, imemSize := some 3, lsDepth := some 1 } : Params).wf = true := by
  decide
theorem test_wf_every_instruction : ∀ i : Instr, i.wellFormed = true := by
  intro i; cases i <;> decide

/-! ## Decoding: words written out from the binary column of 30_encoding.md R52 -/

theorem test_decode_inc : decodeCell 0b01011110 = .op .inc := by decide
theorem test_decode_div : decodeCell 0b00101111 = .op .div := by decide
theorem test_decode_dec : decodeCell 0b01100000 = .op .dec := by decide
theorem test_decode_zero : decodeCell 0b00100001 = .op .zero := by decide
theorem test_decode_add : decodeCell 0b00101011 = .op .add := by decide
theorem test_decode_sub : decodeCell 0b00101101 = .op .sub := by decide
theorem test_decode_mul : decodeCell 0b00101010 = .op .mul := by decide
theorem test_decode_mod : decodeCell 0b00100101 = .op .mod := by decide
theorem test_decode_stb : decodeCell 0b00111101 = .op .stb := by decide
theorem test_decode_ldb : decodeCell 0b01111110 = .op .ldb := by decide
theorem test_decode_prd : decodeCell 0b00100011 = .op .prd := by decide
theorem test_decode_pra : decodeCell 0b01000000 = .op .pra := by decide
theorem test_decode_inp : decodeCell 0b00101110 = .op .inp := by decide
theorem test_decode_lopen : decodeCell 0b01111011 = .op .lopen := by decide
theorem test_decode_lclose : decodeCell 0b01111101 = .op .lclose := by decide
theorem test_decode_halt : decodeCell 0b01111100 = .op .halt := by decide
theorem test_decode_dbg : decodeCell 0b00100100 = .op .dbg := by decide
/-- The letter A (95_test_vectors.md V10 row 9). -/
theorem test_decode_letter_invalid : decodeCell 0x41 = .invalid := by decide
theorem test_decode_table_word : decodeTableWord 8 43 = some .add := by decide
/-- A placed instruction is the one the first step after reset runs. -/
theorem test_placed_runs_first :
    regs (step (State.reset.withFetchWord 8 94)) = some (1, 0, 1) := by decide

/-! ## Arithmetic and moves (95_test_vectors.md V1 to V4) -/

theorem test_inc_wraps : regs (exec .inc (on [] 255 7)) = some (0, 7, 1) := by decide
theorem test_dec_wraps : regs (exec .dec (on [] 0 7)) = some (255, 7, 1) := by decide
theorem test_zero_keeps_y : regs (exec .zero (on [] 77 9)) = some (0, 9, 1) := by decide
theorem test_add_wraps : regs (exec .add (on [] 200 100)) = some (44, 100, 1) := by decide
theorem test_add_top : regs (exec .add (on [] 255 255)) = some (254, 255, 1) := by decide
theorem test_sub_wraps : regs (exec .sub (on [] 100 200)) = some (156, 200, 1) := by decide
theorem test_sub_order : regs (exec .sub (on [] 0 255)) = some (1, 255, 1) := by decide
theorem test_mul_low_byte : regs (exec .mul (on [] 20 20)) = some (144, 20, 1) := by decide
theorem test_mul_top : regs (exec .mul (on [] 255 255)) = some (1, 255, 1) := by decide
theorem test_div_floors : regs (exec .div (on [] 255 2)) = some (127, 2, 1) := by decide
theorem test_div_by_zero :
    control (exec .div (at' [] 7 3 [])) = some (3, [], .faulted, .divisionByZero) := by decide
theorem test_mod_remainder : regs (exec .mod (on [] 253 17)) = some (15, 17, 1) := by decide
theorem test_mod_by_zero_keeps_x : regs (exec .mod (on [] 7 0)) = some (7, 0, 0) := by decide
theorem test_stb_copies : regs (exec .stb (on [] 3 9)) = some (3, 3, 1) := by decide
theorem test_ldb_copies : regs (exec .ldb (on [] 3 9)) = some (9, 9, 1) := by decide

/-! ## Ports (95_test_vectors.md V5, V6) -/

theorem test_prd_emits_x :
    (nextOf (exec .prd (on [] 255 9))).map (·.out) = some [⟨.dec, 255⟩] := by decide
theorem test_pra_emits_x :
    (nextOf (exec .pra (on [] 10 9))).map (·.out) = some [⟨.chr, 10⟩] := by decide
theorem test_dbg_emits_y :
    (nextOf (exec .dbg (on [] 9 42))).map (·.out) = some [⟨.dec, 42⟩] := by decide
theorem test_inp_requests :
    (nextOf (step (on [0x2E] 99 5))).map (fun t => (t.x, t.pc, t.status, t.inCount)) =
      some (99, 0, .waitInput, 1) := by decide
theorem test_inp_negative_answer :
    regs (hostStep (.answer (.value (-300))) (waitingOn [])) = some (212, 5, 1) := by decide
theorem test_inp_large_placed_answer :
    regs (step (waitingOn [.value 123456789])) = some (21, 5, 1) := by decide
theorem test_inp_failure_is_zero :
    regs (step (waitingOn [.failure, .value 3])) = some (0, 5, 1) := by decide
theorem test_console_concatenates :
    console { State.reset with out := [⟨.dec, 10⟩, ⟨.dec, 1⟩, ⟨.chr, 10⟩, ⟨.dec, 0⟩] } =
      ['1', '0', '1', '\n', '0'] := by decide

/-! ## Control (95_test_vectors.md V7 to V10). The cells 7B and 7D are the two brackets. -/

/-- V7 row 3: the skip goes past the outer close. -/
theorem test_lopen_skips_nested :
    control (exec .lopen (at' [0x7B, 0x7B, 0x7D, 0x7D, 0x5E, 0x23] 0 0 [])) =
      some (4, [], .running, .none) := by decide
/-- V7 row 2. -/
theorem test_lopen_enters :
    control (exec .lopen (at' [0x7B, 0x7D] 1 0 [])) = some (1, [0], .running, .none) := by decide
/-- V7 row 8: a full stack. -/
theorem test_lopen_overflow :
    control (exec .lopen { at' [0x7B, 0x7B, 0x7D, 0x7D] 1 1 [0] with
      params := { pcWidth := none, imemSize := none, lsDepth := some 1 } }) =
      some (1, [0], .faulted, .loopStackOverflow) := by decide
/-- V7 row 10: no match. -/
theorem test_lopen_overrun :
    control (exec .lopen (at' [0x7D, 0x7B] 0 1 [])) = some (1, [], .faulted, .loopScanOverrun) := by
  decide
/-- V8 row 5: an inner taken close uses the top entry only. -/
theorem test_lclose_taken :
    control (exec .lclose (at' [0x7B, 0x7B, 0x7D, 0x7D] 1 2 [0, 1])) =
      some (1, [0], .running, .none) := by decide
/-- V8 row 8. -/
theorem test_lclose_exits :
    control (exec .lclose (at' [0x7B, 0x7B, 0x7D, 0x7D] 0 3 [0])) =
      some (4, [], .running, .none) := by decide
/-- V8 row 4: the stack is tested before `X`. -/
theorem test_lclose_underflow :
    control (exec .lclose (at' [0x7B, 0x7D] 5 1 [])) =
      some (1, [], .faulted, .loopStackUnderflow) := by decide
/-- V9 row 3: the loop stack is not emptied. -/
theorem test_halt_in_loop :
    control (exec .halt (at' [0x5E, 0x7B, 0x7C, 0x7D] 1 2 [1])) =
      some (2, [1], .haltedExplicit, .none) := by decide
/-- V9 row 5: the empty program. -/
theorem test_empty_program_halts :
    control (step (on [] 0 0)) = some (0, [], .haltedEnd, .none) := by decide
/-- V10 row 9. -/
theorem test_invalid_cell_faults :
    control (step (at' [0x5E, 0x41, 0x23] 1 1 [])) = some (1, [], .faulted, .illegalOpcode) := by decide

/-! ## Host, Sanitizer and life cycle (95_test_vectors.md V11, V12, S3) -/

/-- V11 row 3: a comment that contains opcode characters contributes them. -/
theorem test_sanitize_filters :
    sanitize ['x', ' ', '=', ' ', '3', ' ', '+', ' ', '4'] = .program [.stb, .add] := by decide
/-- V11 row 10: balanced in count, accepted. -/
theorem test_sanitize_counts_only :
    sanitize [Char.ofNat 125, 'a', Char.ofNat 123] = .program [.lclose, .lopen] := by decide
/-- S3: rejected, no register written. -/
theorem test_load_rejects :
    control (hostStep (.load [Char.ofNat 123, '^']) State.reset) =
      some (0, [], .rejected, .mismatchedBrackets) := by decide
/-- V12 row 1: cancelled at once while it waits; `X` is not written. -/
theorem test_cancel_while_waiting :
    (nextOf (hostStep .cancel (waitingOn [.value 3]))).map
      (fun t => (t.x, t.pc, t.status, t.cause)) = some (99, 0, .cancelled, .none) := by decide
/-- 60_exceptions.md R124: with the cancellation first, an answer does not complete the `.`. -/
theorem test_answer_after_cancel :
    (nextOf (hostStep (.answer (.value 3)) { waitingOn [] with cancelPending := true })).map
      (fun t => (t.x, t.pc, t.status)) = some (99, 0, .cancelled) := by decide
/-- V12 row 6: no effect in a terminal status. -/
theorem test_cancel_after_halt :
    hostCancel { State.reset with status := .haltedEnd } = { State.reset with status := .haltedEnd } := by
  decide
/-- V12 row 4: nothing of the run before survives a reset. -/
theorem test_reset_clears_run :
    (nextOf (hostStep .reset
      { on [0x5E] 1 2 with
        pc := 17, ls := [0], out := [⟨.dec, 1⟩], status := .faulted, cause := .divisionByZero })).map
      (fun t => (t.x, t.pc, t.ls, t.out)) = some (0, 0, [], []) := by decide
/-- The trimming step leaves the program as it is (30_encoding.md R58). -/
theorem test_trim_line : sanitizeTrimmed (· == ' ') [' ', '^', ' ', '#', ' '] = .program [.inc, .prd] := by
  decide

/-! ## Witnesses: for each statement with hypotheses, states that meet them together, clause by clause -/

/-- `{` `}` pairs, nested: the outer pair is cells 0 and 3, the inner 1 and 2. -/
def nested : List Byte := [0x7B, 0x7B, 0x7D, 0x7D]

/-- An `X` writer, `/` with `Y = 0`, and `=`. -/
theorem witness_RegisterInstructionsFrame :
    (exec .mul (on [] 255 255) = .next { on [] 1 255 with pc := 1 }) ∧
    (exec .div (on [] 0 0) = .next { on [] 0 0 with status := .faulted, cause := .divisionByZero }) ∧
    (exec .stb (on [] 3 9) = .next { on [] 3 3 with pc := 1 }) := ⟨rfl, rfl, rfl⟩

theorem witness_DivisionByZeroOnlyFromDivMod :
    (step (on [0x2F] 0 0) = .next { on [0x2F] 0 0 with status := .faulted, cause := .divisionByZero } ∧
      (on [0x2F] 0 0).cause ≠ .divisionByZero) ∧
    (step (on [0x25] 7 0) = .next { on [0x25] 7 0 with status := .faulted, cause := .divisionByZero }) :=
  ⟨⟨rfl, by decide⟩, rfl⟩

theorem witness_BufferWrittenOnlyByStb :
    step (on [0x3D] 9 200) = .next { on [0x3D] 9 9 with pc := 1 } ∧
      ({ on [0x3D] 9 9 with pc := 1 } : State).y ≠ (on [0x3D] 9 200).y := ⟨rfl, by decide⟩

/-- A running writer and the completion of an input. -/
theorem witness_AccumulatorWriters :
    (step (on [0x7E] 0 3) = .next { on [0x7E] 3 3 with pc := 1 } ∧
      ({ on [0x7E] 3 3 with pc := 1 } : State).x ≠ (on [0x7E] 0 3).x) ∧
    regs (step (waitingOn [.value 0])) = some (0, 5, 1) := ⟨⟨rfl, by decide⟩, by decide⟩

theorem witness_InpRequestThenAnswer :
    (waitingOn []).status = .waitInput ∧ (waitingOn []).cancelPending = false := by decide

/-- A value and a failure as the next answer. -/
theorem witness_WaitingStepTakesPlacedAnswer :
    ((waitingOn [.value (-1), .failure]).status = .waitInput ∧
      (waitingOn [.value (-1), .failure]).cancelPending = false ∧
      (waitingOn [.value (-1), .failure]).answers = .value (-1) :: [.failure]) ∧
    ((waitingOn [.failure]).status = .waitInput ∧ (waitingOn [.failure]).cancelPending = false ∧
      (waitingOn [.failure]).answers = .failure :: []) := by decide

/-- With an answer placed and with none (then the free draw decides). -/
theorem witness_WaitingStepAnswersOrWaits :
    ((waitingOn [.failure]).status = .waitInput ∧ (waitingOn [.failure]).cancelPending = false) ∧
    ((waitingOn []).status = .waitInput ∧ (waitingOn []).cancelPending = false) := by decide

theorem witness_PortInstructionsFrame :
    (exec .pra (on [] 0 9) = .next { on [] 0 9 with out := [⟨.chr, 0⟩], pc := 1 }) ∧
    (exec .inp (on [] 1 2) = .next { on [] 1 2 with status := .waitInput, inCount := 1 }) := ⟨rfl, rfl⟩

theorem witness_OutputIsAppendOnly :
    step (on [0x23] 7 9) = .next { on [0x23] 7 9 with out := [⟨.dec, 7⟩], pc := 1 } := rfl

/-- A loaded program with a match, and one whose last loop-open has none. -/
theorem witness_ScanFindsTheMatch :
    Loaded (on nested 0 0) ∧ IsMatch (on nested 0 0) 0 3 ∧
    Loaded (on [0x7D, 0x7B] 0 0) ∧ ∀ j, ¬ IsMatch (on [0x7D, 0x7B] 0 0) 1 j := by
  refine ⟨by decide, by decide, by decide, ?_⟩
  rintro j ⟨h1, h2, -⟩
  have h2 : j < 2 := h2
  omega

/-- An unbounded stack, and a bounded one with room for one more. -/
theorem witness_LopenEntersBody :
    ((at' nested 255 0 []).x ≠ 0 ∧ (at' nested 255 0 []).params.lsDepth ≠ some (at' nested 255 0 []).ls.length) ∧
    ({ at' nested 1 1 [0] with params := { pcWidth := none, imemSize := none, lsDepth := some 2 } } :
      State).params.lsDepth ≠ some 1 := by decide

theorem witness_LopenSkipsBody :
    (at' nested 0 0 []).x = 0 ∧ Loaded (at' nested 0 0 []) ∧
    IsMatch (at' nested 0 0 []) (at' nested 0 0 []).pc 3 := by decide

/-- A stack full at depth 0 and at depth 1, a loop-open without a match in the last cell, an empty stack. -/
theorem witness_LoopInstructionFaults :
    (({ at' nested 1 0 [] with params := { pcWidth := none, imemSize := none, lsDepth := some 0 } } :
      State).params.lsDepth = some 0) ∧
    (({ at' nested 1 1 [0] with params := { pcWidth := none, imemSize := none, lsDepth := some 1 } } :
      State).params.lsDepth = some ([0] : List Nat).length ∧ (at' nested 1 1 [0]).x ≠ 0) ∧
    ((at' [0x7D, 0x7B] 0 1 []).x = 0 ∧ Loaded (at' [0x7D, 0x7B] 0 1 []) ∧
      ∀ j, ¬ IsMatch (at' [0x7D, 0x7B] 0 1 []) (at' [0x7D, 0x7B] 0 1 []).pc j) ∧
    (at' [0x7D, 0x7B] 5 0 []).ls = [] := by
  refine ⟨by decide, by decide, ⟨by decide, by decide, ?_⟩, by decide⟩
  rintro j ⟨h1, h2, -⟩
  have h1 : 1 < j := h1
  have h2 : j < 2 := h2
  omega

/-- For `X = 0` and for `X != 0`. -/
theorem witness_LclosePopsAndBranches :
    (at' nested 0 3 [0]).ls = [] ++ [0] ∧ (at' nested 1 2 [0, 1]).ls = [0] ++ [1] := by decide

theorem witness_ControlInstructionsFrame :
    (exec .halt (at' nested 1 2 [0, 1]) = .next { at' nested 1 2 [0, 1] with status := .haltedExplicit }) ∧
    (exec .lopen (at' nested 1 0 []) = .next { at' nested 1 0 [] with ls := [0], pc := 1 }) ∧
    (exec .lclose (at' nested 1 0 []) =
      .next { at' nested 1 0 [] with status := .faulted, cause := .loopStackUnderflow }) := ⟨rfl, rfl, rfl⟩

/-- The capacity exactly the depth of the stack, the boundary of the last hypothesis. -/
theorem witness_TakenCloseReentersInTwoSteps :
    ∃ s : State, s.status = .running ∧ s.cancelPending = false ∧ fetch s = .op .lclose ∧ s.x ≠ 0 ∧
      s.ls = [0] ++ [1] ∧ cellIs s openCell 1 = true ∧
      ∀ d, s.params.lsDepth = some d → s.ls.length ≤ d := by
  refine ⟨{ at' nested 1 2 [0, 1] with params := { pcWidth := none, imemSize := none, lsDepth := some 2 } },
    by decide, by decide, by decide, by decide, by decide, by decide, ?_⟩
  rintro d hd
  obtain rfl : 2 = d := Option.some.inj hd
  decide

/-- One state for each of the four targets. -/
theorem witness_PcTargets :
    control (step (at' [0x7C] 0 0 [])) = some (0, [], .haltedExplicit, .none) ∧
    control (step (at' [0x5E] 0 0 [])) = some (1, [], .running, .none) ∧
    control (step (at' nested 0 0 [])) = some (4, [], .running, .none) ∧
    control (step (at' nested 1 3 [0])) = some (0, [], .running, .none) :=
  ⟨by decide, by decide, by decide, by decide⟩

theorem witness_LoopStackWriters :
    (step (at' nested 1 0 []) = .next { at' nested 1 0 [] with ls := [0], pc := 1 }) ∧
    (step (at' nested 0 3 [0]) = .next { at' nested 0 3 [] with pc := 4 }) := ⟨rfl, rfl⟩

/-- At the last cell of the program. -/
theorem witness_StepRunsDecodedInstruction :
    (at' nested 1 3 [0]).status = .running ∧ (at' nested 1 3 [0]).cancelPending = false ∧
    (at' nested 1 3 [0]).pc < (at' nested 1 3 [0]).progLen ∧
    Memory.read (at' nested 1 3 [0]).imem (at' nested 1 3 [0]).pc = some 0x7D ∧
    decodeCell 0x7D = .op .lclose := by decide

/-- At `PC = n`, and for the empty program. -/
theorem witness_ImplicitHalt :
    ((at' nested 1 4 []).status = .running ∧ (at' nested 1 4 []).cancelPending = false ∧
      (at' nested 1 4 []).progLen ≤ (at' nested 1 4 []).pc) ∧
    (on [] 0 0).progLen ≤ (on [] 0 0).pc := by decide

theorem witness_InvalidCellFaults :
    (on [0x41] 0 0).status = .running ∧ (on [0x41] 0 0).cancelPending = false ∧
    (on [0x41] 0 0).pc < (on [0x41] 0 0).progLen ∧
    Memory.read (on [0x41] 0 0).imem (on [0x41] 0 0).pc = some 0x41 ∧ decodeCell 0x41 = .invalid := by
  decide

theorem witness_FaultsArePrecise :
    step (at' [0x7D, 0x7B] 5 0 []) =
      .next { at' [0x7D, 0x7B] 5 0 [] with status := .faulted, cause := .loopStackUnderflow } ∧
    (at' [0x7D, 0x7B] 5 0 []).status ≠ .faulted := ⟨rfl, by decide⟩

/-- Running, waiting, waiting with a cancellation latched, and neither. -/
theorem witness_CancellationIsTakenAtTheBoundary :
    (on [0x5E] 0 0).status = .running ∧ (waitingOn []).status = .waitInput ∧
    (({ waitingOn [] with cancelPending := true } : State).status = .waitInput ∧
      ({ waitingOn [] with cancelPending := true } : State).cancelPending = true) ∧
    (State.reset.status ≠ .running ∧ State.reset.status ≠ .waitInput) := by decide

theorem witness_TerminalStatusIsAbsorbing :
    Status.terminal .faulted = true ∧ Status.terminal .haltedEnd = true ∧
    (hostStep .cancel { on [] 0 0 with status := .faulted } = .next { on [] 0 0 with status := .faulted }) ∧
    HostAction.cancel ≠ .reset := ⟨rfl, rfl, rfl, by decide⟩

theorem witness_ProgramIsImmutable :
    step (on [0x5E] 0 0) = .next { on [0x5E] 1 0 with pc := 1 } := rfl

/-- Two states that differ in the output, the status and the host's input. -/
theorem witness_InstructionsReadOnlyProgramState :
    SameForProgram (at' nested 1 0 [])
      { at' nested 1 0 [] with
        out := [⟨.dec, 3⟩], status := .idle, cancelPending := true, answers := [.failure], inCount := 4 } ∧
    (exec .lopen (at' nested 1 0 []) = .next { at' nested 1 0 [] with ls := [0], pc := 1 }) ∧
    (exec .lopen { on [0x7B] 0 0 with progLen := 2 } = .fault (.cellUnwritten 1)) :=
  ⟨⟨rfl, rfl, rfl, rfl, rfl, rfl, rfl⟩, rfl, rfl⟩

/-- Equal totals and unequal totals, the latter from Idle. -/
theorem witness_SanitizerChecksTotalsOnly :
    (([Char.ofNat 125, Char.ofNat 123].countP (fun c => c.toNat == 123)) =
      [Char.ofNat 125, Char.ofNat 123].countP (fun c => c.toNat == 125)) ∧
    (([Char.ofNat 123].countP (fun c => c.toNat == 123)) ≠
      [Char.ofNat 123].countP (fun c => c.toNat == 125)) ∧
    State.reset.status = .idle := by decide

theorem witness_SanitizerOutput :
    sanitize ['a', '^', Char.ofNat 123, Char.ofNat 125] = .program [.inc, .lopen, .lclose] := by decide

/-- Blanks and line feeds as whitespace. -/
theorem witness_TrimmingIsImmaterial :
    ∀ c : Char, (c == ' ' || c == '\n') = true → charInstr c = none := by
  intro c h
  simp only [Bool.or_eq_true, beq_iff_eq] at h
  rcases h with rfl | rfl <;> decide

/-- A program exactly as long as a finite instruction memory. -/
theorem witness_LoadStoresTheProgram :
    ∃ s : State, s.status = .idle ∧ sanitize ['^', '#'] = .program [.inc, .prd] ∧
      ∀ m, s.params.imemSize = some m → ([.inc, .prd] : List Instr).length ≤ m := by
  refine ⟨{ State.reset with params := { pcWidth := some 2, imemSize := some 2, lsDepth := some 1 } },
    by decide, by decide, ?_⟩
  rintro m hm
  obtain rfl : 2 = m := Option.some.inj hm
  decide

/-- One cell too many, a load while running, an answer while running. -/
theorem witness_HostActionsOutsideTheTable :
    (({ State.reset with params := { pcWidth := some 1, imemSize := some 1, lsDepth := none } } :
      State).status = .idle ∧ sanitize ['^', '#'] = .program [.inc, .prd] ∧
      1 < ([.inc, .prd] : List Instr).length) ∧
    (on [] 0 0).status ≠ .idle ∧ (on [] 0 0).status ≠ .waitInput := by decide

/-- The unbounded parameters, and the smallest bounded ones. -/
theorem witness_ResetMeetsInvariant :
    Params.exactBL.wf = true ∧
    ({ pcWidth := some 1, imemSize := some 1, lsDepth := some 1 } : Params).wf = true := by decide

/-- A state inside a loop, with a step. -/
theorem inv_inside_loop : Inv (at' nested 1 2 [0, 1]) where
  memWf := by decide
  loaded := by decide
  paramsWf := by decide
  fits := by decide
  pcBound := by decide
  lsOpens := by decide
  lsBound := by intro d h; cases h
  cause := by decide
  waiting := by intro h; cases h
  latch := by intro h; cases h
  fresh := by intro h; cases h

theorem witness_StepKeepsInvariant :
    Inv (at' nested 1 2 [0, 1]) ∧
    step (at' nested 1 2 [0, 1]) = .next { at' nested 1 1 [0] with pc := 1 } := ⟨inv_inside_loop, rfl⟩

theorem witness_HostKeepsInvariant :
    Inv (at' nested 1 2 [0, 1]) ∧
    hostStep .cancel (at' nested 1 2 [0, 1]) =
      .next { at' nested 1 2 [0, 1] with cancelPending := true } := ⟨inv_inside_loop, rfl⟩

theorem witness_InvariantExcludesStops : Inv (at' nested 1 2 [0, 1]) := inv_inside_loop

/-- Inside two loops: the stack lists both, the outer first. -/
theorem nesting_inside_loop : NestingInv (at' nested 1 2 [0, 1]) where
  loaded := by decide
  nested := by decide
  pcBound := by decide
  waiting := by intro h; cases h
  stack := by decide

/-- The machine at reset, from which a load begins. -/
theorem inv_reset : Inv State.reset where
  memWf := by decide
  loaded := by decide
  paramsWf := by decide
  fits := by decide
  pcBound := by decide
  lsOpens := by decide
  lsBound := by intro d h; cases h
  cause := by decide
  waiting := by intro h; cases h
  latch := by intro h; cases h
  fresh := fun _ => ⟨rfl, rfl, rfl, rfl, rfl, rfl⟩

/-- A step, an action of the host, and the load of a nested text from reset. -/
theorem witness_StepKeepsNestingInvariant :
    (NestingInv (at' nested 1 2 [0, 1]) ∧
      step (at' nested 1 2 [0, 1]) = .next { at' nested 1 1 [0] with pc := 1 }) ∧
    ((∀ src, HostAction.cancel ≠ .load src) ∧
      hostStep .cancel (at' nested 1 2 [0, 1]) =
        .next { at' nested 1 2 [0, 1] with cancelPending := true }) ∧
    (Inv State.reset ∧ State.reset.status = .idle ∧
      sanitize [Char.ofNat 123, '^', Char.ofNat 125] = .program [.lopen, .inc, .lclose] ∧
      NestedProgram [.lopen, .inc, .lclose] ∧
      ∀ m, State.reset.params.imemSize = some m → ([.lopen, .inc, .lclose] : List Instr).length ≤ m) :=
  ⟨⟨nesting_inside_loop, rfl⟩, ⟨(by intro src h; cases h), rfl⟩, inv_reset, rfl, by decide, by decide,
    (by intro m h; cases h)⟩

/-- With a capacity of exactly the deepest nesting. -/
theorem witness_NestedProgramsHaveNoLoopFault :
    NestingInv (at' nested 1 1 [0]) ∧
    (step (at' nested 1 1 [0]) = .next { at' nested 1 2 [0, 1] with pc := 2 }) ∧
    ∀ k, k < 5 → opensIn (at' nested 1 1 [0]) 0 k ≤ closesIn (at' nested 1 1 [0]) 0 k + 2 := by
  refine ⟨⟨by decide, by decide, by decide, (by intro h; cases h), by decide⟩, rfl, by decide⟩

/-- Balanced in count, not nested: the second pair is the wrong way round, and `PC` is before it. The host's reset,
and the load of the text of a loop-close and a loop-open from reset. -/
theorem witness_StepKeepsBalancedInvariant :
    ((∀ src, HostAction.reset ≠ .load src) ∧ Inv State.reset ∧ State.reset.status = .idle ∧
      sanitize [Char.ofNat 125, Char.ofNat 123] = .program [.lclose, .lopen] ∧
      ∀ m, State.reset.params.imemSize = some m → ([.lclose, .lopen] : List Instr).length ≤ m) ∧
    BalancedInv (at' [0x7B, 0x7D, 0x7D, 0x7B] 1 1 [0]) ∧
    ¬ ProperlyNested (at' [0x7B, 0x7D, 0x7D, 0x7B] 1 1 [0]) ∧
    step (at' [0x7B, 0x7D, 0x7D, 0x7B] 1 1 [0]) =
      .next { at' [0x7B, 0x7D, 0x7D, 0x7B] 1 0 [] with pc := 0 } :=
  ⟨⟨(by intro src h; cases h), inv_reset, rfl, by decide, (by intro m h; cases h)⟩,
    ⟨by decide, by decide, by decide, by decide, (by intro h; cases h), by decide⟩, by decide, rfl⟩

/-- A loaded and running machine is reachable. -/
theorem reachable_running : Reachable (startCells State.reset [0x5E, 0x23]) := by
  refine .next _ _ (.reset Params.exactBL rfl) (.host (.load ['^', '#']) _ _ ?_)
  rfl

theorem witness_ReachableStatesMeetInvariant : Reachable (startCells State.reset [0x5E, 0x23]) :=
  reachable_running

/-- Its parameters leave the stack unbounded. -/
theorem witness_ReachableStatesExcludeFaults :
    Reachable (startCells State.reset [0x5E, 0x23]) ∧
    (startCells State.reset [0x5E, 0x23]).params.lsDepth = none := ⟨reachable_running, rfl⟩

end Sys2Proof.Tests
end

section
/-! PROOFS. The Sanitizer's balance check and the load it rejects (30_encoding.md R59, R64;
70_reset_and_hazards.md R151). -/

namespace Sys2Proof.Machine

/-- The loop-open character is the one of code point 123 (30_encoding.md R52). -/
theorem countOpen_eq_countP (t : List Char) : countOpen t = t.countP (fun c => c.toNat == 123) := rfl

/-- The loop-close character is the one of code point 125 (30_encoding.md R52). -/
theorem countClose_eq_countP (t : List Char) : countClose t = t.countP (fun c => c.toNat == 125) := rfl

/-- When the balance check fails (30_encoding.md R59); `sanitize_eq_program` says when it passes. -/
theorem sanitize_eq_mismatchedBrackets {t : List Char} :
    sanitize t = .mismatchedBrackets ↔ countOpen t ≠ countClose t := by
  unfold sanitize
  split
  case isTrue h => simp [h]
  case isFalse h => simp [h]

/-- Load and start of a text that fails the balance check (70_reset_and_hazards.md R151). -/
theorem loadAndStart_of_mismatchedBrackets {t : List Char} (s : State)
    (ht : sanitize t = .mismatchedBrackets) : loadAndStart s t = .next (rejectLoad s) := by
  simp only [loadAndStart, ht]

/-- In `Idle` the host's load is load and start (70_reset_and_hazards.md R154). -/
theorem hostStep_load_of_idle {s : State} (t : List Char) (hs : s.status = .idle) :
    hostStep (.load t) s = loadAndStart s t := by
  simp only [hostStep, hs, if_true]

/-- Settles O47: the code points 123 and 125 are the cells the model counts, so the two cases of the balance
check are those of the statement. -/
theorem sanitizerChecksTotalsOnly : Obligations.SanitizerChecksTotalsOnly := by
  unfold Obligations.SanitizerChecksTotalsOnly
  intro t
  rw [← countOpen_eq_countP, ← countClose_eq_countP]
  constructor
  · intro hequal
    exact ⟨_, sanitize_eq_program.2 ⟨hequal, rfl⟩⟩
  · intro hunequal
    have hreject : sanitize t = .mismatchedBrackets := sanitize_eq_mismatchedBrackets.2 hunequal
    refine ⟨hreject, fun s hs => ?_⟩
    calc hostStep (.load t) s = loadAndStart s t := hostStep_load_of_idle t hs
      _ = .next (rejectLoad s) := loadAndStart_of_mismatchedBrackets s hreject

end Sys2Proof.Machine
end

section
/-! PROOFS. The arithmetic unit (40_alu.md R70 to R78): what retiring a result writes, then each instruction's
result with its encoding. -/

namespace Sys2Proof.Machine

/-- Every instruction's cell decodes back to it (30_encoding.md R52, R53). -/
theorem decodeCell_encode (i : Instr) : decodeCell (encode i) = .op i := by
  cases i <;> decide

/-! ## What the dispatch retires for each instruction -/

theorem exec_inc (s : State) : exec .inc s = retireX s (opX s + 1) := rfl
theorem exec_dec (s : State) : exec .dec s = retireX s (opX s - 1) := rfl
theorem exec_zero (s : State) : exec .zero s = retireX s 0 := rfl
theorem exec_add (s : State) : exec .add s = retireX s (opX s + opY s) := rfl
theorem exec_sub (s : State) : exec .sub s = retireX s (opX s - opY s) := rfl
theorem exec_mul (s : State) : exec .mul s = retireX s (opX s * opY s) := rfl
theorem exec_div (s : State) : exec .div s = retireDivided s (opX s / opY s) := rfl
theorem exec_mod (s : State) : exec .mod s = retireDivided s (opX s % opY s) := rfl

/-! ## Retiring a result -/

/-- An integer and a natural number that agree modulo 256 are stored as the same byte (00_scope.md R8). -/
theorem wrap8_eq_ofNat_of_emod_eq {a : Int} {n : Nat} (h : a % 256 = n % 256) :
    wrap8 a = BitVec.ofNat 8 n := by
  rw [← wrap8_eq_ofNat]
  apply BitVec.eq_of_toNat_eq
  rw [wrap8_toNat, wrap8_toNat, h]

/-- The rule of the arithmetic unit (40_alu.md R70): the low byte of the result goes to `X`, `PC` advances and
nothing else changes. -/
theorem retireX_eq_next_of_emod_eq (s : State) {r : Int} {n : Nat} (h : r % 256 = n % 256) :
    retireX s r = .next { s with x := BitVec.ofNat 8 n, pc := s.pc + 1 } := by
  rw [← wrap8_eq_ofNat_of_emod_eq h]
  rfl

/-- The guard of `/` and `%` (40_alu.md R77, R78): the fault before anything is written, or the result retired. -/
theorem retireDivided_natCast (s : State) (n : Nat) :
    retireDivided s n =
      if s.y = 0 then .next { s with status := .faulted, cause := .divisionByZero }
      else .next { s with x := BitVec.ofNat 8 n, pc := s.pc + 1 } := by
  unfold retireDivided
  rw [retireX_eq_next_of_emod_eq s rfl]
  rfl

/-! ## The results -/

/-- Settles O3: the operand is a natural number, so `wrap8` takes its successor modulo 256. -/
theorem incResult : Obligations.IncResult := by
  refine ⟨decodeCell_encode .inc, fun s => ?_⟩
  rw [exec_inc]
  exact retireX_eq_next_of_emod_eq s (by simp [opX])

/-- Settles O4: with `X = 0` the exact result is -1, which is 255 modulo 256; otherwise it does not wrap. -/
theorem decResult : Obligations.DecResult := by
  refine ⟨decodeCell_encode .dec, fun s => ?_⟩
  rw [exec_dec]
  by_cases hx : s.x = 0
  · rw [if_pos hx]
    exact retireX_eq_next_of_emod_eq s (n := 255) (by simp [opX, hx])
  · rw [if_neg hx]
    have hpos : s.x.toNat ≠ 0 := fun h => hx (BitVec.eq_of_toNat_eq h)
    exact retireX_eq_next_of_emod_eq s (by unfold opX; omega)

/-- Settles O5: the result 0 is retired whatever `X` was. -/
theorem zeroResult : Obligations.ZeroResult := by
  refine ⟨decodeCell_encode .zero, fun s => ?_⟩
  rw [exec_zero]
  exact retireX_eq_next_of_emod_eq s (n := 0) rfl

/-- Settles O6: the exact sum of two natural numbers, reduced modulo 256. -/
theorem addResult : Obligations.AddResult := by
  refine ⟨decodeCell_encode .add, fun s => ?_⟩
  rw [exec_add]
  exact retireX_eq_next_of_emod_eq s (by simp [opX, opY])

/-- Settles O7: the exact difference is negative exactly when `Y` exceeds `X`, and adding 256 does not change
its value modulo 256. -/
theorem subResult : Obligations.SubResult := by
  refine ⟨decodeCell_encode .sub, fun s => ?_⟩
  rw [exec_sub]
  have hy : s.y.toNat < 256 := s.y.isLt
  refine retireX_eq_next_of_emod_eq s ?_
  unfold opX opY
  split
  case isTrue hle => omega
  case isFalse hlt => omega

/-- Settles O8: the exact product of two natural numbers, reduced modulo 256. -/
theorem mulResult : Obligations.MulResult := by
  refine ⟨decodeCell_encode .mul, fun s => ?_⟩
  rw [exec_mul]
  exact retireX_eq_next_of_emod_eq s (by simp [opX, opY])

/-- Settles O9: the integer quotient of the operands is that of the natural numbers they stand for. -/
theorem divResult : Obligations.DivResult := by
  refine ⟨decodeCell_encode .div, fun s => ?_⟩
  have hquotient : opX s / opY s = (s.x.toNat / s.y.toNat : Nat) := (Int.natCast_ediv _ _).symm
  rw [exec_div, hquotient]
  exact retireDivided_natCast s _

/-- Settles O10: the integer remainder of the operands is that of the natural numbers they stand for. -/
theorem modResult : Obligations.ModResult := by
  refine ⟨decodeCell_encode .mod, fun s => ?_⟩
  have hremainder : opX s % opY s = (s.x.toNat % s.y.toNat : Nat) := (Int.natCast_emod _ _).symm
  rw [exec_mod, hremainder]
  exact retireDivided_natCast s _

end Sys2Proof.Machine
end

section
/-! PROOFS. The register moves (41_moves.md R85, R86): each copy's full next state, with its encoding. -/

namespace Sys2Proof.Machine

theorem exec_stb (s : State) : exec .stb s = .next (s.writeY s.x).advance := rfl
theorem exec_ldb (s : State) : exec .ldb s = retireX s (opY s) := rfl

/-- A byte read as an operand and written back is the same byte: all 8 bits are copied (41_moves.md R86). -/
theorem wrap8_opY (s : State) : wrap8 (opY s) = s.y :=
  BitVec.eq_of_toNat_eq (wrap8_natCast s.y.isLt)

/-- Settles O13: the byte of `X` goes to `Y` as it is, with no arithmetic result between. -/
theorem stbResult : Obligations.StbResult := by
  refine ⟨decodeCell_encode .stb, fun s => ?_⟩
  rw [exec_stb]
  rfl

/-- Settles O14: the value retired to `X` is `Y` read as an integer, which `wrap8` turns back into `Y`. -/
theorem ldbResult : Obligations.LdbResult := by
  refine ⟨decodeCell_encode .ldb, fun s => ?_⟩
  calc exec .ldb s = retireX s (opY s) := exec_ldb s
    _ = .next { s with x := wrap8 (opY s), pc := s.pc + 1 } := rfl
    _ = .next { s with x := s.y, pc := s.pc + 1 } := by rw [wrap8_opY]

end Sys2Proof.Machine
end

section
/-! PROOFS. The output instructions (42_io.md R90, R92 to R94): the rule of an emission, then each instruction's
full next state with its encoding. -/

namespace Sys2Proof.Machine

theorem exec_prd (s : State) : exec .prd s = .next (s.emit .dec s.x).advance := rfl
theorem exec_pra (s : State) : exec .pra s = .next (s.emit .chr s.x).advance := rfl
theorem exec_dbg (s : State) : exec .dbg s = .next (s.emit .dec s.y).advance := rfl

/-- The rule of an emission (42_io.md R90): one event goes to the end of `OUT`, `PC` advances and nothing else
changes. -/
theorem State.advance_emit (s : State) (k : EventKind) (v : Byte) :
    (s.emit k v).advance = { s with out := s.out ++ [{ kind := k, v := v }], pc := s.pc + 1 } := rfl

/-- Settles O17: `#` emits the byte of `X` as a decimal event. -/
theorem prdResult : Obligations.PrdResult := by
  refine ⟨decodeCell_encode .prd, fun s => ?_⟩
  rw [exec_prd, State.advance_emit]

/-- Settles O18: `@` emits the byte of `X` as a character event, whatever the byte is. -/
theorem praResult : Obligations.PraResult := by
  refine ⟨decodeCell_encode .pra, fun s => ?_⟩
  rw [exec_pra, State.advance_emit]

/-- Settles O19: `$` emits the byte of `Y` as an event of the kind that `#` emits. -/
theorem dbgResult : Obligations.DbgResult := by
  refine ⟨decodeCell_encode .dbg, fun s => ?_⟩
  rw [exec_dbg, State.advance_emit]

end Sys2Proof.Machine
end

section
/-! PROOFS. Control transfer and the end of the program (43_control.md R102, R103, R105): what the forward scan
finds from any index, then halt and the implicit halt. -/

namespace Sys2Proof.Machine

/-! ## The forward scan -/

/-- The matching loop-close of R105 is the first cell past `p` at which one more loop was closed than opened. -/
theorem isMatch_iff_firstClose {s : State} {p j : Nat} :
    IsMatch s p j ↔ FirstClose s (p + 1) 1 j := by
  constructor
  · rintro ⟨hpj, hjn, hcount, hfirst⟩
    exact ⟨hpj, hjn, hcount, fun k hpk hkj => hfirst k hkj hpk⟩
  · rintro ⟨hpj, hjn, hcount, hfirst⟩
    exact ⟨hpj, hjn, hcount, fun k hkj hpk => hfirst k hpk hkj⟩

/-- From the end of the program on, the scan has no cell to read. -/
theorem matchOf_of_progLen_le {s : State} {p : Nat} (hp : s.progLen ≤ p) : matchOf s p = .overrun := by
  have hleft : s.progLen - (p + 1) = 0 := by omega
  rw [matchOf, hleft, scanFrom]

/-- What the scan finds, from an index inside the program or past it (43_control.md R105). -/
theorem matchOf_eq_found_iff_isMatch {s : State} (hl : Loaded s) {p j : Nat} :
    matchOf s p = .found j ↔ IsMatch s p j := by
  rcases Nat.lt_or_ge p s.progLen with hp | hp
  · rw [matchOf_found hl hp, isMatch_iff_firstClose]
  · rw [matchOf_of_progLen_le hp]
    simp only [reduceCtorEq, false_iff]
    rintro ⟨hpj, hjn, -⟩
    omega

/-- On a loaded program the scan has two outcomes only: it overruns exactly when it finds no cell. -/
theorem matchOf_eq_overrun_iff_not_found {s : State} (hl : Loaded s) {p : Nat} :
    matchOf s p = .overrun ↔ ∀ j, matchOf s p ≠ .found j := by
  rcases Nat.lt_or_ge p s.progLen with hp | hp
  · cases hscan : matchOf s p with
    | found j => simp
    | overrun => simp
    | unwritten k => exact absurd hscan (matchOf_ne_unwritten hl hp)
  · simp [matchOf_of_progLen_le hp]

/-- Settles O27: the match is what the scan finds, and a scan that finds nothing on a loaded program overruns. -/
theorem scanFindsTheMatch : Obligations.ScanFindsTheMatch := by
  intro s p hl
  refine ⟨fun j => matchOf_eq_found_iff_isMatch hl, ?_⟩
  rw [matchOf_eq_overrun_iff_not_found hl]
  exact forall_congr' fun j => not_congr (matchOf_eq_found_iff_isMatch hl)

/-! ## Halt, and the end of the program -/

theorem exec_halt (s : State) : exec .halt s = .next (s.setStatus .haltedExplicit) := rfl

/-- A running engine with no cancellation latched takes a step of the dispatch loop (43_control.md R100). -/
theorem step_of_running {s : State} (hs : s.status = .running) (hc : s.cancelPending = false) :
    step s = stepRunning s := by
  simp [step, hs, hc]

/-- The dispatch loop at the end of the program (43_control.md R102). -/
theorem stepRunning_of_pastEnd {s : State} (hf : fetch s = .pastEnd) :
    stepRunning s = .next (s.setStatus .haltedEnd) := by
  simp only [stepRunning, hf]

/-- Settles O26: halt writes `STATUS` and nothing else. -/
theorem haltResult : Obligations.HaltResult := by
  refine ⟨decodeCell_encode .halt, fun s => ?_⟩
  rw [exec_halt]
  rfl

/-- Settles O37: at or past the program length the fetch finds the end, and the dispatch loop writes `STATUS`
and nothing else. -/
theorem implicitHalt : Obligations.ImplicitHalt := by
  intro s hs hc hend
  calc step s = stepRunning s := step_of_running hs hc
    _ = .next (s.setStatus .haltedEnd) := stepRunning_of_pastEnd (fetch_eq_pastEnd.2 hend)

end Sys2Proof.Machine
end

section
/-! PROOFS. What one step does to each part of the state, said once from `step_effect`: the pair of `PC` and `LS`
(43_control.md R101, R104, R106), the pair of `STATUS` and `CAUSE` (60_exceptions.md R131), and each other register.
The whole-machine rules follow from these. -/

namespace Sys2Proof.Machine

/-! ## `PC` and `LS` -/

/-- Everything a step can do to `PC` and `LS`. -/
inductive ControlMove (s t : State) : Prop where
  /-- Both stay: a fault, a cancellation, an end, a request or a wait. -/
  | kept (hpc : t.pc = s.pc) (hls : t.ls = s.ls)
  /-- `PC` passes an instruction that is no bracket. -/
  | passed (hf : s.status = .waitInput ∨ ∃ i, fetch s = .op i ∧ i ≠ .lopen ∧ i ≠ .lclose)
      (hpc : t.pc = s.pc + 1) (hls : t.ls = s.ls)
  | skipped (m : Nat) (hf : fetch s = .op .lopen) (hx : s.x = 0) (hm : matchOf s s.pc = .found m)
      (hpc : t.pc = m + 1) (hls : t.ls = s.ls)
  | entered (hf : fetch s = .op .lopen) (hx : s.x ≠ 0) (hl : s.params.lsDepth ≠ some s.ls.length)
      (hpc : t.pc = s.pc + 1) (hls : t.ls = s.ls ++ [s.pc])
  | exited (p : Nat) (hf : fetch s = .op .lclose) (hpc : t.pc = s.pc + 1) (hls : s.ls = t.ls ++ [p])
  | jumpedBack (hf : fetch s = .op .lclose) (hx : s.x ≠ 0) (hls : s.ls = t.ls ++ [t.pc])

/-- What a fetched instruction does to `PC` and `LS`. -/
theorem ExecEffect.controlMove {i : Instr} {s t : State} (hf : fetch s = .op i) (h : ExecEffect i s t) :
    ControlMove s t := by
  cases h with
  | wroteX r hi => exact .passed (.inr ⟨i, hf, by rintro rfl; simp at hi, by rintro rfl; simp at hi⟩) rfl rfl
  | wroteY hi => exact .passed (.inr ⟨i, hf, by simp [hi], by simp [hi]⟩) rfl rfl
  | emitted k v hi => exact .passed (.inr ⟨i, hf, by rintro rfl; simp at hi, by rintro rfl; simp at hi⟩) rfl rfl
  | skipped m hi hx hm => exact .skipped m (hi ▸ hf) hx hm rfl rfl
  | entered hi hx hl => exact .entered (hi ▸ hf) hx hl rfl rfl
  | exited l p hi hl hx => exact .exited p (hi ▸ hf) rfl hl
  | jumpedBack l p hi hl hx => exact .jumpedBack (hi ▸ hf) hx hl
  | _ => exact .kept rfl rfl

/-- What a step does to `PC` and `LS`. -/
theorem StepEffect.controlMove {s t : State} (h : StepEffect s t) : ControlMove s t := by
  cases h with
  | answered hs hc a ans d hfrom => exact .passed (.inl hs) rfl rfl
  | executed hs hc i t hf he => exact he.controlMove hf
  | _ => exact .kept rfl rfl

/-- Settles O34: each move of `PC` and `LS` gives `PC` one of the four values. -/
theorem pcTargets : Obligations.PcTargets := by
  intro s t h
  cases (step_effect h).controlMove with
  | kept hpc hls => exact .inl hpc
  | passed hf hpc hls => exact .inr (.inl hpc)
  | skipped m hf hx hm hpc hls => exact .inr (.inr (.inl ⟨hf, hx, m, hm, hpc⟩))
  | entered hf hx hl hpc hls => exact .inr (.inl hpc)
  | exited p hf hpc hls => exact .inr (.inl hpc)
  | jumpedBack hf hx hls => exact .inr (.inr (.inr ⟨hf, hx, hls⟩))

/-- Settles O35: the moves that change `LS` are the push of an entered loop and the two pops. -/
theorem loopStackWriters : Obligations.LoopStackWriters := by
  intro s t h hne
  cases (step_effect h).controlMove with
  | kept hpc hls => exact absurd hls hne
  | passed hf hpc hls => exact absurd hls hne
  | skipped m hf hx hm hpc hls => exact absurd hls hne
  | entered hf hx hl hpc hls => exact .inl ⟨hf, hx, hls⟩
  | exited p hf hpc hls => exact .inr ⟨hf, by simp [hls]⟩
  | jumpedBack hf hx hls => exact .inr ⟨hf, by simp [hls]⟩

/-! ## `STATUS` and `CAUSE` -/

/-- Why a step of a running engine faults, cause by cause (60_exceptions.md section 1). -/
inductive FaultReason (s : State) : Cause → Prop where
  | divisionByZero (hf : fetch s = .op .div ∨ fetch s = .op .mod) (hy : s.y = 0) :
      FaultReason s .divisionByZero
  | loopStackUnderflow (hf : fetch s = .op .lclose) (hl : s.ls = []) : FaultReason s .loopStackUnderflow
  | loopStackOverflow (hf : fetch s = .op .lopen) (hl : s.params.lsDepth = some s.ls.length) :
      FaultReason s .loopStackOverflow
  | illegalOpcode (hf : fetch s = .invalid) : FaultReason s .illegalOpcode
  | loopScanOverrun (hf : fetch s = .op .lopen) (hm : matchOf s s.pc = .overrun) :
      FaultReason s .loopScanOverrun

/-- The causes a step raises are causes of a fault: not `None`, and not the loader's (60_exceptions.md R129). -/
theorem FaultReason.causeFits {s : State} {c : Cause} (h : FaultReason s c) : causeFits .faulted c = true := by
  cases h <;> rfl

/-- Everything a step can do to `STATUS` and `CAUSE`. -/
inductive StatusMove (s t : State) : Prop where
  | faulted (c : Cause) (hr : FaultReason s c) (ht : t = s.raised c)
  | kept (hst : t.status = s.status) (hc : t.cause = s.cause)
  /-- A request, an answer, an end or a cancellation. -/
  | changed (hs : s.status = .running ∨ s.status = .waitInput)
      (ht : t.status ∈ [.running, .waitInput, .haltedEnd, .haltedExplicit, Status.cancelled])
      (hc : t.cause = s.cause)

/-- What a fetched instruction does to `STATUS` and `CAUSE`. -/
theorem ExecEffect.statusMove {i : Instr} {s t : State} (hs : s.status = .running) (hf : fetch s = .op i)
    (h : ExecEffect i s t) : StatusMove s t := by
  cases h with
  | dividedByZero hi hy =>
    have hdivmod : fetch s = .op .div ∨ fetch s = .op .mod := by
      rcases hi with rfl | rfl
      · exact .inl hf
      · exact .inr hf
    exact .faulted _ (.divisionByZero hdivmod hy) rfl
  | scanOverran hi hx hm => exact .faulted _ (.loopScanOverrun (hi ▸ hf) hm) rfl
  | stackFull hi hx hl => exact .faulted _ (.loopStackOverflow (hi ▸ hf) hl) rfl
  | stackEmpty hi hl => exact .faulted _ (.loopStackUnderflow (hi ▸ hf) hl) rfl
  | requested hi => exact .changed (.inl hs) (by simp) rfl
  | halted hi => exact .changed (.inl hs) (by simp) rfl
  | _ => exact .kept rfl rfl

/-- What a step does to `STATUS` and `CAUSE`. -/
theorem StepEffect.statusMove {s t : State} (h : StepEffect s t) : StatusMove s t := by
  cases h with
  | tookCancel hs hc => exact .changed (.inl hs) (by simp) rfl
  | tookCancelWaiting hs hc => exact .changed (.inr hs) (by simp) rfl
  | answered hs hc a ans d hfrom => exact .changed (.inr hs) (by simp) rfl
  | ranOut hs hc hp => exact .changed (.inl hs) (by simp) rfl
  | fetchedInvalid hs hc hf => exact .faulted _ (.illegalOpcode hf) rfl
  | executed hs hc i t hf he => exact he.statusMove hs hf
  | stayed hs => exact .kept rfl rfl
  | waited hs hc ha hd => exact .kept rfl rfl

/-- A step that changes `CAUSE` raised the new cause, for the reason that goes with it. -/
theorem faultReason_of_cause_ne {s t : State} (h : step s = .next t) (hne : t.cause ≠ s.cause) :
    FaultReason s t.cause := by
  cases (step_effect h).statusMove with
  | faulted c hr ht => rwa [ht]
  | kept hst hc => exact absurd hc hne
  | changed hs ht hc => exact absurd hc hne

/-- A cause a step had no reason to raise was there before it. -/
theorem cause_eq_of_not_faultReason {s t : State} {c : Cause} (h : step s = .next t) (hc : t.cause = c)
    (hno : ¬ FaultReason s c) : s.cause = c := by
  by_contra hne
  exact hno (hc ▸ faultReason_of_cause_ne h fun e => hne (e ▸ hc))

/-- Settles O12: DivisionByZero has one reason. -/
theorem divisionByZeroOnlyFromDivMod : Obligations.DivisionByZeroOnlyFromDivMod := by
  intro s t h ht hs
  have hreason := faultReason_of_cause_ne h (by rw [ht]; exact hs.symm)
  rw [ht] at hreason
  cases hreason with
  | divisionByZero hf hy => exact ⟨hf, hy⟩

/-- Settles O39: a step enters Faulted by raising a cause, and raising writes `STATUS` and `CAUSE` only. -/
theorem faultsArePrecise : Obligations.FaultsArePrecise := by
  intro s t h hs ht
  cases (step_effect h).statusMove with
  | faulted c hr hraised =>
    subst hraised
    have hfits := hr.causeFits
    simp only [causeFits, Bool.and_eq_true, bne_iff_ne] at hfits
    exact ⟨rfl, hfits⟩
  | kept hst hc => exact absurd (hst ▸ ht) hs
  | changed hlive hst hc => simp [ht] at hst

/-! ## `X`, `Y`, `OUT` and the program -/

/-- Settles O15: of everything a step can do, only the effect of `=` writes `Y`. -/
theorem bufferWrittenOnlyByStb : Obligations.BufferWrittenOnlyByStb := by
  intro s t h hne
  cases step_effect h with
  | executed hs hc i t hf he =>
    cases he with
    | wroteY hi => exact ⟨hs, hi ▸ hf, rfl⟩
    | _ => exact absurd rfl hne
  | _ => exact absurd rfl hne

/-- Settles O16: of everything a step can do, only the completion of an input and a retired result write `X`. -/
theorem accumulatorWriters : Obligations.AccumulatorWriters := by
  intro s t h hne
  cases step_effect h with
  | answered hs hc a ans d hfrom => exact .inl ⟨hs, rfl, rfl⟩
  | executed hs hc i t hf he =>
    cases he with
    | wroteX r hi => exact .inr ⟨hs, i, hf, hi⟩
    | _ => exact absurd rfl hne
  | _ => exact absurd rfl hne

/-- Settles O24: of everything a step can do, only an emission writes `OUT`, and it appends one event. -/
theorem outputIsAppendOnly : Obligations.OutputIsAppendOnly := by
  intro s t h
  cases step_effect h with
  | executed hs hc i t hf he =>
    cases he with
    | emitted k v hi => exact .inr ⟨_, rfl⟩
    | _ => exact .inl rfl
  | _ => exact .inl rfl

/-- Settles O43: `StepEffect.program` says it of everything a step can do. -/
theorem programIsImmutable : Obligations.ProgramIsImmutable :=
  fun _ _ h => (step_effect h).program

/-! ## The latch, and the statuses a step does not enter -/

/-- A step after which a cancellation is latched changed nothing: a running or waiting engine takes it or has none. -/
theorem StepEffect.eq_of_cancelPending {s t : State} (h : StepEffect s t) (ht : t.cancelPending = true) :
    t = s := by
  cases h with
  | stayed hs => rfl
  | tookCancel hs hc => cases ht
  | tookCancelWaiting hs hc => cases ht
  | executed hs hc i t hf he =>
    have hkept : t.cancelPending = s.cancelPending := by cases he <;> rfl
    rw [hkept, hc] at ht
    cases ht
  | _ => simp_all

/-- No step enters `Idle`. -/
theorem StepEffect.eq_of_idle {s t : State} (h : StepEffect s t) (ht : t.status = .idle) : t = s := by
  cases h with
  | stayed hs => rfl
  | executed hs hc i t hf he => cases he <;> simp_all
  | _ => simp_all

/-- An engine that waits after a step has its `PC` where it was, at the `.` it ran or waits in. -/
theorem StepEffect.waitInput {s t : State} (h : StepEffect s t) (ht : t.status = .waitInput) :
    t.pc = s.pc ∧ (s.status = .waitInput ∨ fetch s = .op .inp) := by
  cases h with
  | waited hs hc ha hd => exact ⟨rfl, .inl hs⟩
  | stayed hs => exact absurd ht hs.2
  | executed hs hc i t hf he =>
    cases he with
    | requested hi => exact ⟨rfl, .inr (hi ▸ hf)⟩
    | _ => simp_all
  | _ => simp_all

/-- That a waiting engine's `PC` indexes the `.` (10_state.md R23(b)) is kept by every step. -/
theorem StepEffect.waiting {s t : State} (h : StepEffect s t)
    (hw : s.status = .waitInput → fetch s = .op .inp) (ht : t.status = .waitInput) :
    fetch t = .op .inp := by
  obtain ⟨hpc, hs⟩ := h.waitInput ht
  obtain ⟨hmem, hlen, -⟩ := h.program
  rw [fetch_congr hmem hlen hpc]
  exact hs.elim hw id

end Sys2Proof.Machine
end

section
/-! PROOFS. The instructions one by one: what each family leaves unchanged, from `exec_effect`, and what loop-open
and loop-close do in each of their cases (43_control.md R104, R106). -/

namespace Sys2Proof.Machine

/-! ## Frames -/

/-- No instruction touches the memory, the parameters, the latch or the host's input. -/
theorem ExecEffect.machineKept {i : Instr} {s t : State} (h : ExecEffect i s t) : MachineKept s t := by
  cases h <;> exact ⟨fun _ => rfl, rfl, rfl, rfl, rfl, rfl⟩

/-- What an instruction that writes `X` can do: retire a result, or fault on a division by zero. -/
theorem ExecEffect.of_writesX {i : Instr} {s t : State} (h : ExecEffect i s t) (hw : Instr.writesX i) :
    (∃ r, t = (s.writeX r).advance) ∨
    ((i = .div ∨ i = .mod) ∧ s.y = 0 ∧ t = s.raised .divisionByZero) := by
  cases h with
  | wroteX r hi => exact .inl ⟨r, rfl⟩
  | dividedByZero hi hy => exact .inr ⟨hi, hy, rfl⟩
  | emitted k v hi => cases i <;> simp at hi hw
  | _ => subst i; simp at hw

/-- What `=` does. -/
theorem ExecEffect.of_stb {s t : State} (h : ExecEffect .stb s t) : t = (s.writeY s.x).advance := by
  cases h with
  | wroteY hi => rfl
  | _ => simp_all

/-- What a port instruction can do: emit an event, or request an input. -/
theorem ExecEffect.of_port {i : Instr} {s t : State} (h : ExecEffect i s t)
    (hp : i ∈ [.prd, .pra, .dbg, Instr.inp]) :
    (i ≠ .inp ∧ ∃ k v, t = (s.emit k v).advance) ∨ (i = .inp ∧ t = s.requestInput) := by
  cases h with
  | emitted k v hi => exact .inl ⟨by rintro rfl; simp at hi, k, v, rfl⟩
  | requested hi => exact .inr ⟨hi, rfl⟩
  | wroteX r hi => cases i <;> simp at hi hp
  | dividedByZero hi hy => rcases hi with rfl | rfl <;> simp at hp
  | _ => subst i; simp at hp

/-- What a control instruction can do: halt, fault, or write `PC` and `LS` and nothing else. -/
theorem ExecEffect.of_control {i : Instr} {s t : State} (h : ExecEffect i s t)
    (hi : i ∈ [.lopen, .lclose, Instr.halt]) :
    (i = .halt ∧ t = s.setStatus .haltedExplicit) ∨
    (i ≠ .halt ∧ ((∃ c, t = s.raised c) ∨ t = { s with pc := t.pc, ls := t.ls })) := by
  cases h with
  | halted hi => exact .inl ⟨hi, rfl⟩
  | scanOverran hi hx hm => exact .inr ⟨by simp [hi], .inl ⟨_, rfl⟩⟩
  | stackFull hi hx hl => exact .inr ⟨by simp [hi], .inl ⟨_, rfl⟩⟩
  | stackEmpty hi hl => exact .inr ⟨by simp [hi], .inl ⟨_, rfl⟩⟩
  | skipped m hi hx hm => exact .inr ⟨by simp [hi], .inr rfl⟩
  | entered hi hx hl => exact .inr ⟨by simp [hi], .inr rfl⟩
  | exited l p hi hl hx => exact .inr ⟨by simp [hi], .inr rfl⟩
  | jumpedBack l p hi hl hx => exact .inr ⟨by simp [hi], .inr rfl⟩
  | wroteX r hw => cases i <;> simp at hi hw
  | emitted k v hk => cases i <;> simp at hi hk
  | dividedByZero hd hy => rcases hd with rfl | rfl <;> simp at hi
  | wroteY hw => subst hw; simp at hi
  | requested hr => subst hr; simp at hi

/-- Settles O11: the instruction retired a result, faulted on `Y = 0`, or copied `X` to `Y`. -/
theorem registerInstructionsFrame : Obligations.RegisterInstructionsFrame := by
  intro i s t h
  have heffect := exec_effect h
  have hkept := heffect.machineKept
  refine ⟨fun hw => ?_, ?_⟩
  · rcases heffect.of_writesX hw with ⟨r, rfl⟩ | ⟨hi, hy, rfl⟩
    · exact ⟨rfl, rfl, rfl, rfl, hkept, .inr ⟨rfl, rfl⟩⟩
    · exact ⟨rfl, rfl, rfl, rfl, hkept, .inl ⟨hi, hy⟩⟩
  · rintro rfl
    obtain rfl := heffect.of_stb
    exact ⟨rfl, rfl, rfl, rfl, hkept, rfl, rfl⟩

/-- Settles O23: the instruction emitted an event or requested an input. -/
theorem portInstructionsFrame : Obligations.PortInstructionsFrame := by
  intro i s t hp h
  have heffect := exec_effect h
  have hkept := heffect.machineKept
  rcases heffect.of_port hp with ⟨hi, k, v, rfl⟩ | ⟨hi, rfl⟩
  · exact ⟨rfl, rfl, rfl, rfl, hkept, fun e => absurd e hi, fun _ => ⟨rfl, rfl⟩⟩
  · exact ⟨rfl, rfl, rfl, rfl, hkept, fun _ => ⟨rfl, rfl⟩, fun hne => absurd hi hne⟩

/-- Settles O32: the instruction halted, faulted, or wrote `PC` and `LS` only. -/
theorem controlInstructionsFrame : Obligations.ControlInstructionsFrame := by
  intro i s t hmem h
  have heffect := exec_effect h
  have hkept := heffect.machineKept
  rcases heffect.of_control hmem with ⟨hi, rfl⟩ | ⟨hi, ⟨c, rfl⟩ | ht⟩
  · exact ⟨rfl, rfl, rfl, rfl, hkept, fun _ => ⟨rfl, rfl, rfl⟩, fun hne => absurd hi hne⟩
  · exact ⟨rfl, rfl, rfl, rfl, hkept, fun e => absurd e hi, fun _ => .inl rfl⟩
  · refine ⟨?_, ?_, ?_, ?_, hkept, fun e => absurd e hi, fun _ => .inr ⟨?_, ?_⟩⟩ <;> rw [ht]

/-! ## Loop-open and loop-close, case by case -/

theorem exec_lopen (s : State) : exec .lopen s = execLopen s := rfl
theorem exec_lclose (s : State) : exec .lclose s = execLclose s := rfl

/-- A skip goes past the match the scan finds (43_control.md R104, R105). -/
theorem exec_lopen_of_found {s : State} {m : Nat} (hx : s.x = 0) (hm : matchOf s s.pc = .found m) :
    exec .lopen s = .next (s.jump (m + 1)) := by
  rw [exec_lopen, execLopen, if_pos (zeroX_eq_true.2 hx), hm]

/-- A skip whose scan reaches the end of the program faults (60_exceptions.md R128). -/
theorem exec_lopen_of_overrun {s : State} (hx : s.x = 0) (hm : matchOf s s.pc = .overrun) :
    exec .lopen s = .next (s.raised .loopScanOverrun) := by
  rw [exec_lopen, execLopen, if_pos (zeroX_eq_true.2 hx), hm]
  rfl

/-- A skip whose scan comes to a cell without a value stops the model (20_memory.md R33, log 2). -/
theorem exec_lopen_of_unwritten {s : State} {j : Nat} (hx : s.x = 0) (hm : matchOf s s.pc = .unwritten j) :
    exec .lopen s = .fault (.cellUnwritten j) := by
  rw [exec_lopen, execLopen, if_pos (zeroX_eq_true.2 hx), hm]

/-- An entry pushes `PC` where there is room (43_control.md R104). -/
theorem exec_lopen_of_room {s : State} (hx : s.x ≠ 0) (hl : s.params.lsDepth ≠ some s.ls.length) :
    exec .lopen s = .next { s with ls := s.ls ++ [s.pc], pc := s.pc + 1 } := by
  have hz : ¬ zeroX s = true := fun e => hx (zeroX_eq_true.1 e)
  rw [exec_lopen, execLopen, if_neg hz, push_eq_some.2 ⟨hl, rfl⟩]
  rfl

/-- An entry faults where the stack is full (60_exceptions.md R127). -/
theorem exec_lopen_of_full {s : State} (hx : s.x ≠ 0) (hl : s.params.lsDepth = some s.ls.length) :
    exec .lopen s = .next (s.raised .loopStackOverflow) := by
  have hz : ¬ zeroX s = true := fun e => hx (zeroX_eq_true.1 e)
  rw [exec_lopen, execLopen, if_neg hz, push_eq_none.2 hl]
  rfl

/-- A loop-close on the empty stack faults for either value of `X` (60_exceptions.md R126). -/
theorem exec_lclose_of_empty {s : State} (hl : s.ls = []) :
    exec .lclose s = .next (s.raised .loopStackUnderflow) := by
  rw [exec_lclose, execLclose, pop_eq_none.2 hl]
  rfl

/-- A loop-close pops first and then branches on `X` (43_control.md R106). -/
theorem exec_lclose_of_top {s : State} {l : List Nat} {p : Nat} (hl : s.ls = l ++ [p]) :
    exec .lclose s = .next { s with ls := l, pc := if s.x = 0 then s.pc + 1 else p } := by
  rw [exec_lclose, execLclose, pop_eq_some.2 ⟨l, hl, rfl⟩]
  by_cases hx : s.x = 0
  · rw [if_pos hx]
    exact if_pos (zeroX_eq_true.2 hx)
  · rw [if_neg hx]
    exact if_neg fun e => hx (zeroX_eq_true.1 e)

/-- Settles O28: the entry of a loop where the stack has room. -/
theorem lopenEntersBody : Obligations.LopenEntersBody :=
  fun _ hx hl => exec_lopen_of_room hx hl

/-- Settles O29: on a loaded program the scan finds the match. -/
theorem lopenSkipsBody : Obligations.LopenSkipsBody :=
  fun _ _ hx hloaded hm => exec_lopen_of_found hx ((matchOf_eq_found_iff_isMatch hloaded).2 hm)

/-- Settles O30: on a loaded program the scan overruns where there is no match. -/
theorem loopInstructionFaults : Obligations.LoopInstructionFaults := by
  refine ⟨fun s hx hl => exec_lopen_of_full hx hl, fun s hx hloaded hno => ?_,
    fun s hl => exec_lclose_of_empty hl⟩
  exact exec_lopen_of_overrun hx (((scanFindsTheMatch s s.pc hloaded).2).2 hno)

/-- Settles O31: the pop of a top entry, for either value of `X`. -/
theorem lclosePopsAndBranches : Obligations.LclosePopsAndBranches :=
  fun _ _ _ hl => exec_lclose_of_top hl

/-! ## The dispatch loop -/

/-- A running engine with no cancellation latched runs the instruction it fetches (43_control.md R100). -/
theorem step_of_fetch {s : State} {i : Instr} (hs : s.status = .running) (hc : s.cancelPending = false)
    (hf : fetch s = .op i) : step s = exec i s := by
  rw [step_of_running hs hc]
  simp only [stepRunning, hf]

/-- Settles O36: a cell below the program length that decodes to `i` is fetched as `i`. -/
theorem stepRunsDecodedInstruction : Obligations.StepRunsDecodedInstruction :=
  fun _ b _ hs hc hlt hread hdecode =>
    step_of_fetch hs hc (fetch_eq_op.2 ⟨b, fetchCell_eq_some.2 ⟨hlt, hread⟩, hdecode⟩)

/-- Settles O38: a cell below the program length that decodes to Invalid is fetched as Invalid. -/
theorem invalidCellFaults : Obligations.InvalidCellFaults := by
  intro s b hs hc hlt hread hdecode
  have hf : fetch s = .invalid := fetch_eq_invalid.2 ⟨b, fetchCell_eq_some.2 ⟨hlt, hread⟩, hdecode⟩
  rw [step_of_running hs hc]
  simp only [stepRunning, hf]
  rfl

/-- A loop-open cell at `PC` is fetched as loop-open. -/
theorem fetch_of_cellIs_openCell {s : State} (h : cellIs s openCell s.pc = true) : fetch s = .op .lopen :=
  fetch_eq_op.2 ⟨openCell, by simpa [cellIs] using h, decodeCell_openCell⟩

/-- Settles O33: the jump pops the entry and lands on the loop-open, which then has room to push it again. -/
theorem takenCloseReentersInTwoSteps : Obligations.TakenCloseReentersInTwoSteps := by
  intro s l p hs hc hf hx hl ho hdepth
  refine ⟨{ s with ls := l, pc := p }, ?_, ?_⟩
  · rw [step_of_fetch hs hc hf, exec_lclose_of_top hl, if_neg hx]
  · have hopen : fetch { s with ls := l, pc := p } = .op .lopen := fetch_of_cellIs_openCell ho
    have hroom : s.params.lsDepth ≠ some l.length := by
      intro hfull
      have := hdepth _ hfull
      simp [hl] at this
    calc step { s with ls := l, pc := p } = exec .lopen { s with ls := l, pc := p } :=
          step_of_fetch hs hc hopen
      _ = .next { s with ls := l ++ [p], pc := p + 1 } := exec_lopen_of_room hx hroom
      _ = .next { s with pc := p + 1 } := by rw [← hl]

end Sys2Proof.Machine
end

section
/-! PROOFS. The opcode map in both directions (30_encoding.md R52, R53), what the Sanitizer hands on and why trimming
is immaterial to it (R57 to R62), and the load that stores a program or refuses it (70_reset_and_hazards.md R151). -/

namespace Sys2Proof.Machine

/-! ## The opcode map -/

/-- In every row all 8 bits are compared, with the code of the row's instruction (30_encoding.md R53). -/
theorem encode_of_mem_opcodeTable : ∀ r ∈ opcodeTable, r.mask = 0xFF ∧ encode r.instr = r.code := by decide

/-- A cell that decodes to an instruction is the instruction's code (30_encoding.md R52). -/
theorem encode_of_decodeCell {b : Byte} {i : Instr} (h : decodeCell b = .op i) : encode i = b := by
  unfold decodeCell at h
  split at h
  case h_1 r hr =>
    obtain rfl : r.instr = i := Decoded.op.inj h
    obtain ⟨hmask, hcode⟩ := encode_of_mem_opcodeTable r (List.mem_of_find?_eq_some hr)
    have hmatch : b &&& r.mask = r.code := by simpa using List.find?_some hr
    have hall : b &&& 0xFF = b := BitVec.and_allOnes
    rw [hcode, ← hmatch, hmask, hall]
  case h_2 => cases h

/-- The decoder and the encoder are inverse to each other. -/
theorem decodeCell_eq_op_iff {b : Byte} {i : Instr} : decodeCell b = .op i ↔ encode i = b :=
  ⟨encode_of_decodeCell, fun h => h ▸ decodeCell_encode i⟩

/-- Settles O1: the decoder finds the row of an instruction, and the row's code is the instruction's cell. -/
theorem decodeAndEncodeAgree : Obligations.DecodeAndEncodeAgree :=
  fun _ _ => decodeCell_eq_op_iff

/-- A count over the numbers below a sum, split at the first summand. -/
theorem countP_range_add (f : Nat → Bool) (a b : Nat) :
    (List.range (a + b)).countP f = (List.range a).countP f + (List.range b).countP (fun n => f (a + n)) := by
  rw [List.range_add, List.countP_append, List.countP_map]
  rfl

/-- Whether a cell value is Invalid. -/
def isInvalid (n : Nat) : Bool := decodeCell (BitVec.ofNat 8 n) == .invalid

/-- Of the 256 cell values 239 are Invalid (30_encoding.md R53): ten opcodes lie below 64, seven from 64 to 127, and
none above. -/
theorem countP_isInvalid : (List.range 256).countP isInvalid = 239 := by
  have hfirst : (List.range 64).countP isInvalid = 64 - 10 := by decide
  have hsecond : (List.range 64).countP (fun n => isInvalid (64 + n)) = 64 - 7 := by decide
  have hthird : (List.range 64).countP (fun n => isInvalid (128 + n)) = 64 := by decide
  have hfourth : (List.range 64).countP (fun n => isInvalid (192 + n)) = 64 := by decide
  calc (List.range 256).countP isInvalid
      = (List.range 192).countP isInvalid + 64 := by rw [countP_range_add _ 192 64, hfourth]
    _ = (List.range 128).countP isInvalid + 64 + 64 := by rw [countP_range_add _ 128 64, hthird]
    _ = (List.range 64).countP isInvalid + (64 - 7) + 64 + 64 := by rw [countP_range_add _ 64 64, hsecond]
    _ = 239 := by rw [hfirst]

/-- Settles O2: eleven of the words are codes of the map, the letter A is none, and the 256 cells are counted. -/
theorem specWordsDecode : Obligations.SpecWordsDecode :=
  ⟨decodeCell_encode .inc, decodeCell_encode .dec, decodeCell_encode .sub, decodeCell_encode .mod,
    decodeCell_encode .stb, decodeCell_encode .ldb, decodeCell_encode .inp, decodeCell_encode .dbg,
    decodeCell_encode .lopen, decodeCell_encode .lclose, decodeCell_encode .halt, by decide, countP_isInvalid⟩

/-! ## The characters of the alphabet -/

/-- A character spells an opcode exactly when its code point is the opcode's code (30_encoding.md R52, R57). -/
theorem charInstr_eq_some_iff_toNat {c : Char} {i : Instr} :
    charInstr c = some i ↔ c.toNat = (encode i).toNat := by
  rw [charInstr_eq_some, decodeCell_eq_op_iff]
  constructor
  · rintro ⟨hc, he⟩
    rw [he, BitVec.toNat_ofNat, Nat.mod_eq_of_lt hc]
  · intro he
    have hc : c.toNat < 256 := he ▸ (encode i).isLt
    refine ⟨hc, BitVec.eq_of_toNat_eq ?_⟩
    rw [BitVec.toNat_ofNat, Nat.mod_eq_of_lt hc, he]

/-- The characters of an opcode in a text are the opcodes of that kind in the filtered text. -/
theorem count_filterMap_charInstr (t : List Char) (i : Instr) :
    (t.filterMap charInstr).count i = t.countP (fun c => c.toNat == (encode i).toNat) := by
  rw [List.count_filterMap]
  refine List.countP_congr fun c _ => ?_
  rw [beq_iff_eq, beq_iff_eq, charInstr_eq_some_iff_toNat]

/-- The loop-open characters of a text are the loop-opens of the filtered text. -/
theorem countOpen_eq_count (t : List Char) : countOpen t = (t.filterMap charInstr).count .lopen :=
  (count_filterMap_charInstr t .lopen).symm

/-- The loop-close characters of a text are the loop-closes of the filtered text. -/
theorem countClose_eq_count (t : List Char) : countClose t = (t.filterMap charInstr).count .lclose :=
  (count_filterMap_charInstr t .lclose).symm

/-! ## The Sanitizer -/

/-- A program the Sanitizer answers has equal totals of the two brackets (30_encoding.md R61). -/
theorem balanced_of_sanitize {t : List Char} {p : List Instr} (h : sanitize t = .program p) :
    balanced p = true := by
  obtain ⟨htotals, rfl⟩ := sanitize_eq_program.1 h
  rw [countOpen_eq_count, countClose_eq_count] at htotals
  simpa [balanced] using htotals

/-- The filter keeps the characters that spell an opcode, in order, and what they spell (30_encoding.md R60). -/
theorem map_charInstr_filter (t : List Char) :
    (t.filter fun c => (charInstr c).isSome).map charInstr = (t.filterMap charInstr).map some := by
  induction t with
  | nil => rfl
  | cons c t ih => cases hc : charInstr c <;> simp [hc, ih]

/-- Settles O48: the filter keeps the characters that spell an opcode, in order. -/
theorem sanitizerOutput : Obligations.SanitizerOutput := by
  intro t p h
  have hbalanced := balanced_of_sanitize h
  obtain ⟨-, rfl⟩ := sanitize_eq_program.1 h
  exact ⟨hbalanced, map_charInstr_filter t, fun c i => charInstr_eq_some_iff_toNat⟩

/-- The Sanitizer's answer depends on the opcode characters of the text alone: the balance check counts two of them
(30_encoding.md R58, R59). -/
theorem sanitize_congr {t u : List Char} (h : t.filterMap charInstr = u.filterMap charInstr) :
    sanitize t = sanitize u := by
  simp only [sanitize, countOpen_eq_count, countClose_eq_count, h]

section
variable {ws : Char → Bool} (hws : ∀ c, ws c = true → charInstr c = none)
include hws

/-- Dropping whitespace outside the alphabet from the front of a text drops no opcode. -/
theorem filterMap_dropWhile (t : List Char) :
    (t.dropWhile ws).filterMap charInstr = t.filterMap charInstr := by
  induction t with
  | nil => rfl
  | cons c t ih =>
    cases hc : ws c with
    | true => rw [List.dropWhile_cons_of_pos hc, ih, List.filterMap_cons_none (hws c hc)]
    | false => rw [List.dropWhile_cons_of_neg (by simp [hc])]

/-- Trimming drops no opcode (30_encoding.md R58). -/
theorem filterMap_trim (t : List Char) : (trim ws t).filterMap charInstr = t.filterMap charInstr := by
  rw [trim, List.filterMap_reverse, filterMap_dropWhile hws, List.filterMap_reverse, List.reverse_reverse,
    filterMap_dropWhile hws]

/-- Trimming each line of a file drops no opcode (30_encoding.md R62). -/
theorem filterMap_fileSource (lines : List (List Char)) :
    (fileSource ws lines).filterMap charInstr = lines.flatten.filterMap charInstr := by
  induction lines with
  | nil => rfl
  | cons line lines ih =>
    have hcons : fileSource ws (line :: lines) = trim ws line ++ fileSource ws lines := rfl
    rw [hcons, List.filterMap_append, filterMap_trim hws, ih, List.flatten_cons, List.filterMap_append]

end

/-- Settles O49: the Sanitizer sees the opcode characters only, and trimming drops none. -/
theorem trimmingIsImmaterial : Obligations.TrimmingIsImmaterial :=
  fun _ hws => ⟨fun t => sanitize_congr (filterMap_trim hws t),
    fun lines => sanitize_congr (filterMap_fileSource hws lines)⟩

/-! ## Load and start -/

/-- When a program fits the instruction memory (00_scope.md R5). -/
theorem fitsImem_eq_true {p : Params} {n : Nat} :
    fitsImem p n = true ↔ ∀ m, p.imemSize = some m → n ≤ m := by
  unfold fitsImem
  cases p.imemSize <;> simp

/-- From `Idle` a program that fits is stored and started (70_reset_and_hazards.md R151). -/
theorem hostStep_load_of_program {s : State} {t : List Char} {p : List Instr} (hs : s.status = .idle)
    (hp : sanitize t = .program p) (hfits : ∀ m, s.params.imemSize = some m → p.length ≤ m) :
    hostStep (.load t) s = .next (startCells s (p.map encode)) := by
  rw [hostStep_load_of_idle t hs]
  simp only [loadAndStart, hp, fitsImem_eq_true.2 hfits, if_true]

/-- Settles O50: the start writes the program's codes from index 0 and touches no register. -/
theorem loadStoresTheProgram : Obligations.LoadStoresTheProgram := by
  intro s t p hs hp hfits
  refine ⟨_, hostStep_load_of_program hs hp hfits, rfl, ?_, fun k => ?_, rfl, rfl, rfl, rfl, rfl, rfl⟩
  · rw [startCells_progLen, List.length_map]
  · rw [fetchCell_startCells, List.getElem?_map]

/-- Settles O51: the two tests on `STATUS`, and the length test of the loader. -/
theorem hostActionsOutsideTheTable : Obligations.HostActionsOutsideTheTable := by
  refine ⟨fun s t p m hs hp hm hlt => ?_, fun s t hs => if_neg hs, fun s a hs => if_neg hs⟩
  have hno : ¬ fitsImem s.params p.length = true := by
    rw [fitsImem_eq_true]
    exact fun hfits => absurd (hfits m hm) (Nat.not_le.2 hlt)
  rw [hostStep_load_of_idle t hs]
  simp only [loadAndStart, hp, hno]
  rfl

/-! ## The rendering of a number -/

/-- Settles O25: the digits by the number of places the value needs. -/
theorem numeralIsShortestDecimal : Obligations.NumeralIsShortestDecimal := by
  intro v
  have hrender : render { kind := .dec, v := v } = numeral v.toNat := rfl
  have hv : v.toNat < 256 := v.isLt
  rw [hrender]
  generalize v.toNat = n at hv
  unfold numeral
  split
  case isTrue h1 => exact ⟨[n], rfl, by simp [h1]⟩
  case isFalse h1 =>
    split
    case isTrue h2 =>
      refine ⟨[n / 10, n % 10], rfl, ?_⟩
      simp only [List.forall_mem_cons, List.length_cons, List.foldl_cons, List.head?_cons, Option.some.injEq]
      refine ⟨⟨by omega, by omega, by simp⟩, by simp, by simp, ?_, by omega⟩
      simp only [List.foldl_nil]
      omega
    case isFalse h2 =>
      refine ⟨[n / 100, n / 10 % 10, n % 10], rfl, ?_⟩
      simp only [List.forall_mem_cons, List.length_cons, List.foldl_cons, List.head?_cons, Option.some.injEq]
      refine ⟨⟨by omega, by omega, by omega, by simp⟩, by simp, by simp, ?_, by omega⟩
      simp only [List.foldl_nil]
      omega

end Sys2Proof.Machine
end

section
/-! PROOFS. The invariant of the machine (10_state.md sections 2 to 5): it holds at reset, every step and every action
of the host keeps it, and no step stops from a state that meets it. One lemma per clause, then the clauses together. -/

namespace Sys2Proof.Machine

/-! ## The clauses about the program -/

/-- That the program is loaded depends on the memory and the program length alone. -/
theorem loaded_congr {s t : State} (hm : t.imem = s.imem) (hn : t.progLen = s.progLen) (h : Loaded s) :
    Loaded t := by
  intro a ha
  rw [hm]
  exact h a (hn ▸ ha)

/-- A started program is loaded (70_reset_and_hazards.md R151 step 4). -/
theorem loaded_startCells (s : State) (cells : List Byte) : Loaded (startCells s cells) :=
  fun _ ha => isSome_read_startCells s cells ha

/-- The clauses that speak of the program and the parameters carry over to any state with the same ones; what is left
to show speaks of the registers. -/
theorem Inv.of_sameProgram {s t : State} (h : Inv s)
    (hprog : t.imem = s.imem ∧ t.progLen = s.progLen ∧ t.params = s.params)
    (pcBound : t.pc ≤ s.progLen) (lsOpens : ∀ v ∈ t.ls, cellIs s openCell v = true)
    (lsBound : ∀ d, s.params.lsDepth = some d → t.ls.length ≤ d)
    (cause : causeFits t.status t.cause = true)
    (waiting : t.status = .waitInput → fetch t = .op .inp)
    (latch : t.cancelPending = true → t.status = .running)
    (fresh : t.status = .idle → t.x = 0 ∧ t.y = 0 ∧ t.pc = 0 ∧ t.ls = [] ∧ t.out = [] ∧ t.inCount = 0) :
    Inv t := by
  obtain ⟨hmem, hlen, hparams⟩ := hprog
  exact
    { memWf := hmem ▸ h.memWf
      loaded := loaded_congr hmem hlen h.loaded
      paramsWf := hparams ▸ h.paramsWf
      fits := by rw [hparams, hlen]; exact h.fits
      pcBound := hlen ▸ pcBound
      lsOpens := by rw [cellIs_congr hmem hlen]; exact lsOpens
      lsBound := hparams ▸ lsBound
      cause, waiting, latch, fresh }

/-! ## The clauses a step changes -/

/-- A waiting engine's `PC` is below the program length, so the completion of an input keeps `PC` within it. -/
theorem Inv.pc_lt_of_waitInput {s : State} (h : Inv s) (hs : s.status = .waitInput) : s.pc < s.progLen :=
  pc_lt_of_fetch (h.waiting hs)

/-- A move of `PC` and `LS` leaves `PC` at most the program length (10_state.md R14). -/
theorem Inv.controlMove_pc_le {s t : State} (h : Inv s) (hmove : ControlMove s t) : t.pc ≤ s.progLen := by
  cases hmove with
  | kept hpc hls => exact hpc ▸ h.pcBound
  | passed hf hpc hls =>
    rw [hpc]
    rcases hf with hs | ⟨i, hf, -⟩
    · exact h.pc_lt_of_waitInput hs
    · exact pc_lt_of_fetch hf
  | skipped m hf hx hm hpc hls =>
    obtain ⟨-, hmn, -⟩ := (matchOf_eq_found_iff_isMatch h.loaded).1 hm
    exact hpc ▸ hmn
  | entered hf hx hl hpc hls => exact hpc ▸ pc_lt_of_fetch hf
  | exited p hf hpc hls => exact hpc ▸ pc_lt_of_fetch hf
  | jumpedBack hf hx hls =>
    have htop : cellIs s openCell t.pc = true := h.lsOpens t.pc (by simp [hls])
    simp only [cellIs, beq_iff_eq] at htop
    exact (fetchCell_eq_some.1 htop).1.le

/-- A move of `PC` and `LS` leaves only indices of loop-opens on the stack (10_state.md R15). -/
theorem Inv.controlMove_lsOpens {s t : State} (h : Inv s) (hmove : ControlMove s t) :
    ∀ v ∈ t.ls, cellIs s openCell v = true := by
  cases hmove with
  | kept hpc hls => exact hls ▸ h.lsOpens
  | passed hf hpc hls => exact hls ▸ h.lsOpens
  | skipped m hf hx hm hpc hls => exact hls ▸ h.lsOpens
  | entered hf hx hl hpc hls =>
    intro v hv
    rw [hls, List.mem_append, List.mem_singleton] at hv
    rcases hv with hv | rfl
    · exact h.lsOpens v hv
    · simp [cellIs, fetchCell_of_lopen hf]
  | exited p hf hpc hls => exact fun v hv => h.lsOpens v (by simp [hls, hv])
  | jumpedBack hf hx hls => exact fun v hv => h.lsOpens v (by simp [hls, hv])

/-- A move of `PC` and `LS` leaves the stack within its capacity (10_state.md R15). -/
theorem Inv.controlMove_lsBound {s t : State} (h : Inv s) (hmove : ControlMove s t) :
    ∀ d, s.params.lsDepth = some d → t.ls.length ≤ d := by
  intro d hd
  have hbound := h.lsBound d hd
  cases hmove with
  | kept hpc hls => exact hls ▸ hbound
  | passed hf hpc hls => exact hls ▸ hbound
  | skipped m hf hx hm hpc hls => exact hls ▸ hbound
  | entered hf hx hl hpc hls =>
    have hroom : d ≠ s.ls.length := fun e => hl (e ▸ hd)
    simp only [hls, List.length_append, List.length_singleton]
    omega
  | exited p hf hpc hls => simp only [hls, List.length_append, List.length_singleton] at hbound; omega
  | jumpedBack hf hx hls => simp only [hls, List.length_append, List.length_singleton] at hbound; omega

/-- Before and during a run there is no cause (10_state.md R18). -/
theorem Inv.cause_eq_none {s : State} (h : Inv s) (hs : s.status ∈ [.idle, .running, Status.waitInput]) :
    s.cause = .none := by
  have hfits := h.cause
  simp only [List.mem_cons, List.not_mem_nil, or_false] at hs
  rcases hs with hs | hs | hs <;> simpa [hs, causeFits] using hfits

/-- A move of `STATUS` and `CAUSE` leaves them in accord (60_exceptions.md R129). -/
theorem Inv.statusMove_causeFits {s t : State} (h : Inv s) (hmove : StatusMove s t) :
    causeFits t.status t.cause = true := by
  cases hmove with
  | faulted c hr ht => exact ht ▸ hr.causeFits
  | kept hst hc => rw [hst, hc]; exact h.cause
  | changed hs ht hc =>
    have hnone : s.cause = .none := h.cause_eq_none (by simp [hs])
    rw [hc, hnone]
    revert ht
    cases t.status <;> simp [causeFits]

/-- Settles O53: each clause is kept by what the step does to its part of the state. -/
theorem stepKeepsInvariant : Obligations.StepKeepsInvariant := by
  intro s t h hstep
  have heffect := step_effect hstep
  have hmove := heffect.controlMove
  exact h.of_sameProgram heffect.program
    (pcBound := h.controlMove_pc_le hmove)
    (lsOpens := h.controlMove_lsOpens hmove)
    (lsBound := h.controlMove_lsBound hmove)
    (cause := h.statusMove_causeFits heffect.statusMove)
    (waiting := heffect.waiting h.waiting)
    (latch := fun ht => by
      obtain rfl := heffect.eq_of_cancelPending ht
      exact h.latch ht)
    (fresh := fun ht => by
      obtain rfl := heffect.eq_of_idle ht
      exact h.fresh ht)

/-! ## Reset and the host's actions -/

/-- Settles O52: nothing is loaded and every register has its reset value. -/
theorem resetMeetsInvariant : Obligations.ResetMeetsInvariant := by
  intro p hp
  exact
    { memWf := Memory.wf_reset
      loaded := fun a ha => absurd ha (Nat.not_lt_zero a)
      paramsWf := hp
      fits := by cases hm : p.imemSize <;> simp [fitsImem, State.reset, hm]
      pcBound := le_rfl
      lsOpens := fun v hv => absurd hv List.not_mem_nil
      lsBound := fun d _ => Nat.zero_le d
      cause := rfl
      waiting := fun hs => by cases hs
      latch := fun hc => by cases hc
      fresh := fun _ => ⟨rfl, rfl, rfl, rfl, rfl, rfl⟩ }

/-- The host's reset keeps the program, and every register takes its reset value (70_reset_and_hazards.md R150). -/
theorem Inv.hostReset {s : State} (h : Inv s) : Inv (hostReset s) :=
  h.of_sameProgram ⟨rfl, rfl, rfl⟩
    (pcBound := Nat.zero_le _)
    (lsOpens := fun v hv => absurd hv List.not_mem_nil)
    (lsBound := fun d _ => Nat.zero_le d)
    (cause := rfl)
    (waiting := fun hs => by cases hs)
    (latch := fun hc => by cases hc)
    (fresh := fun _ => ⟨rfl, rfl, rfl, rfl, rfl, rfl⟩)

/-- In `Idle` no cancellation is latched. -/
theorem Inv.not_cancelPending_of_idle {s : State} (h : Inv s) (hs : s.status = .idle) :
    s.cancelPending ≠ true := by
  intro hc
  have := h.latch hc
  simp [hs] at this

/-- A rejected load changes `STATUS` and `CAUSE` only (60_exceptions.md R121). -/
theorem Inv.rejectLoad {s : State} (h : Inv s) (hs : s.status = .idle) : Inv (rejectLoad s) :=
  h.of_sameProgram ⟨rfl, rfl, rfl⟩ h.pcBound h.lsOpens h.lsBound
    (cause := rfl)
    (waiting := fun hs => by cases hs)
    (latch := fun hc => absurd hc (h.not_cancelPending_of_idle hs))
    (fresh := fun hs => by cases hs)

/-- A load and start brings a program that fits, with the registers as reset left them (70_reset_and_hazards.md
R151). -/
theorem Inv.startCells {s : State} (h : Inv s) (hs : s.status = .idle) {cells : List Byte}
    (hfits : fitsImem s.params cells.length = true) : Inv (startCells s cells) := by
  obtain ⟨-, -, hpc, hls, -, -⟩ := h.fresh hs
  exact
    { memWf := Memory.wf_load h.memWf 0 cells
      loaded := loaded_startCells s cells
      paramsWf := h.paramsWf
      fits := hfits
      pcBound := by simp [hpc]
      lsOpens := by simp [hls]
      lsBound := h.lsBound
      cause := by simp [h.cause_eq_none (by simp [hs]), causeFits]
      waiting := fun hs => by cases hs
      latch := fun _ => rfl
      fresh := fun hs => by cases hs }

/-- The completion of an input passes the `.`, which lies inside the program (42_io.md R96 step 2). -/
theorem Inv.completeInput {s : State} (h : Inv s) (hs : s.status = .waitInput) (a : Answer) :
    Inv (completeInput s a) :=
  h.of_sameProgram ⟨rfl, rfl, rfl⟩
    (pcBound := h.pc_lt_of_waitInput hs)
    (lsOpens := h.lsOpens)
    (lsBound := h.lsBound)
    (cause := by simp [h.cause_eq_none (by simp [hs]), causeFits])
    (waiting := fun hs => by cases hs)
    (latch := fun _ => rfl)
    (fresh := fun hs => by cases hs)

/-- A cancelled `.` changes `STATUS` only, of what the invariant speaks of (60_exceptions.md R124). -/
theorem Inv.cancelWaiting {s : State} (h : Inv s) (hs : s.status = .waitInput) : Inv (cancelWaiting s) :=
  h.of_sameProgram ⟨rfl, rfl, rfl⟩ h.pcBound h.lsOpens h.lsBound
    (cause := by simp [h.cause_eq_none (by simp [hs]), causeFits])
    (waiting := fun hs => by cases hs)
    (latch := fun hc => by cases hc)
    (fresh := fun hs => by cases hs)

/-- A cancellation may be latched while the engine runs (10_state.md R23(c)). -/
theorem Inv.latched {s : State} (h : Inv s) (hs : s.status = .running) :
    Inv { s with cancelPending := true } :=
  h.of_sameProgram ⟨rfl, rfl, rfl⟩ h.pcBound h.lsOpens h.lsBound h.cause h.waiting
    (latch := fun _ => hs)
    (fresh := h.fresh)

/-- Settles O54: by the cases of the host's actions. -/
theorem hostKeepsInvariant : Obligations.HostKeepsInvariant := by
  intro act s t h hstep
  rcases hostStep_cases hstep with
    ⟨-, rfl⟩ | ⟨src, -, hs, hload⟩ | ⟨a, -, hs, -, rfl⟩ | ⟨hs, -, rfl⟩ | ⟨-, hs, rfl⟩ | rfl
  · exact h.hostReset
  · rcases loadAndStart_cases hload with ⟨-, rfl⟩ | ⟨p, -, hfits, rfl⟩
    · exact h.rejectLoad hs
    · exact h.startCells hs (by rwa [List.length_map])
  · exact h.completeInput hs a
  · exact h.cancelWaiting hs
  · exact h.latched hs
  · exact h

/-! ## Progress -/

/-- A retired result is a next state. -/
theorem retireDivided_next (s : State) (r : Int) : ∃ t, retireDivided s r = .next t := by
  unfold retireDivided
  split
  · exact ⟨_, rfl⟩
  · exact ⟨_, rfl⟩

/-- A loop-open inside a loaded program gives a next state: its scan reads no cell without a value. -/
theorem exec_lopen_next {s : State} (hl : Loaded s) (hpc : s.pc < s.progLen) :
    ∃ t, exec .lopen s = .next t := by
  by_cases hx : s.x = 0
  · cases hscan : matchOf s s.pc with
    | found m => exact ⟨_, exec_lopen_of_found hx hscan⟩
    | overrun => exact ⟨_, exec_lopen_of_overrun hx hscan⟩
    | unwritten j => exact absurd hscan (matchOf_ne_unwritten hl hpc)
  · by_cases hfull : s.params.lsDepth = some s.ls.length
    · exact ⟨_, exec_lopen_of_full hx hfull⟩
    · exact ⟨_, exec_lopen_of_room hx hfull⟩

/-- A loop-close gives a next state. -/
theorem exec_lclose_next (s : State) : ∃ t, exec .lclose s = .next t := by
  rcases List.eq_nil_or_concat s.ls with hl | ⟨l, p, hl⟩
  · exact ⟨_, exec_lclose_of_empty hl⟩
  · exact ⟨_, exec_lclose_of_top (by rw [hl, List.concat_eq_append])⟩

/-- Every instruction inside a loaded program gives a next state. -/
theorem exec_next {s : State} (hl : Loaded s) (hpc : s.pc < s.progLen) (i : Instr) :
    ∃ t, exec i s = .next t := by
  cases i with
  | div => exact retireDivided_next s _
  | mod => exact retireDivided_next s _
  | lopen => exact exec_lopen_next hl hpc
  | lclose => exact exec_lclose_next s
  | _ => exact ⟨_, rfl⟩

/-- On a loaded program the fetch finds a value (20_memory.md R33). -/
theorem fetch_ne_unwritten {s : State} (hl : Loaded s) : fetch s ≠ .unwritten := by
  rcases Nat.lt_or_ge s.pc s.progLen with hlt | hge
  · obtain ⟨b, hb⟩ := Option.isSome_iff_exists.1 (hl s.pc hlt)
    have hcell : fetchCell s s.pc = some b := fetchCell_eq_some.2 ⟨hlt, hb⟩
    cases hd : decodeCell b with
    | op i => simp [fetch_eq_op.2 ⟨b, hcell, hd⟩]
    | invalid => simp [fetch_eq_invalid.2 ⟨b, hcell, hd⟩]
  · simp [fetch_eq_pastEnd.2 hge]

/-- On a loaded program the dispatch loop gives a next state. -/
theorem stepRunning_next {s : State} (hl : Loaded s) : ∃ t, stepRunning s = .next t := by
  unfold stepRunning
  cases hf : fetch s with
  | pastEnd => exact ⟨_, rfl⟩
  | unwritten => exact absurd hf (fetch_ne_unwritten hl)
  | invalid => exact ⟨_, rfl⟩
  | op i => exact exec_next hl (pc_lt_of_fetch hf) i

/-- Settles O55: only an unwritten cell stops a step, and a loaded program has none. -/
theorem invariantExcludesStops : Obligations.InvariantExcludesStops := by
  intro s h
  unfold step
  split
  · split
    · exact ⟨_, rfl⟩
    · exact stepRunning_next h.loaded
  · split
    · exact ⟨_, rfl⟩
    · exact ⟨_, rfl⟩
  all_goals exact ⟨_, rfl⟩

end Sys2Proof.Machine
end

section
/-! PROOFS. The loop stack lists the loops that enclose `PC` (10_state.md R16, 43_control.md R111): kept by every move
of `PC` and `LS` in a program that is balanced in count, and so in a properly nested one; then the bracket faults that
a properly nested program excludes. -/

namespace Sys2Proof.Machine

/-! ## What depends on the program alone -/

/-- Nesting up to an index depends on the memory and the program length alone. -/
theorem NestedAt.congr {s t : State} (hm : t.imem = s.imem) (hn : t.progLen = s.progLen) {p : Nat}
    (h : NestedAt s p) : NestedAt t p where
  loaded := loaded_congr hm hn h.loaded
  balanced := by rw [opensIn_congr hm hn, closesIn_congr hm hn, hn]; exact h.balanced
  nested := fun k hk => by rw [opensIn_congr hm hn, closesIn_congr hm hn]; exact h.nested k hk
  bound := hn ▸ h.bound

/-- The loops that enclose an index depend on the memory and the program length alone. -/
theorem enclosingLoops_congr {s t : State} (hm : t.imem = s.imem) (hn : t.progLen = s.progLen) (p : Nat) :
    enclosingLoops t p = enclosingLoops s p := by
  have hsame : encloses t p = encloses s p := by
    funext q
    simp only [encloses, cellIs_congr hm hn, matchOf_congr hm hn]
  rw [enclosingLoops, hsame, enclosingLoops]

/-- Proper nesting depends on the memory and the program length alone. -/
theorem properlyNested_congr {s t : State} (hm : t.imem = s.imem) (hn : t.progLen = s.progLen)
    (h : ProperlyNested s) : ProperlyNested t := by
  obtain ⟨hnested, hbalanced⟩ := h
  refine ⟨fun k hk => ?_, ?_⟩
  · rw [opensIn_congr hm hn, closesIn_congr hm hn]
    exact hnested k (hn ▸ hk)
  · rw [opensIn_congr hm hn, closesIn_congr hm hn, hn]
    exact hbalanced

/-- No loop encloses the first cell. -/
theorem enclosingLoops_zero (s : State) : enclosingLoops s 0 = [] := rfl

/-- Up to index 0 every loaded program that is balanced in count is nested. -/
theorem NestedAt.zero {s : State} (hl : Loaded s) (hb : opensIn s 0 s.progLen = closesIn s 0 s.progLen) :
    NestedAt s 0 where
  loaded := hl
  balanced := hb
  nested := fun k hk => by
    obtain rfl : k = 0 := by omega
    simp
  bound := Nat.zero_le _

/-! ## The invariant and its parts -/

/-- What the invariant says of the program, at `PC`. -/
theorem BalancedInv.nestedAt {s : State} (h : BalancedInv s) : NestedAt s s.pc where
  loaded := h.loaded
  balanced := h.balanced
  nested := h.nestedToPc
  bound := h.pcBound

/-- The invariant of a state with the same program, from what it says of `PC`, `LS` and `STATUS`. -/
theorem NestedAt.balancedInv {s t : State} (hm : t.imem = s.imem) (hn : t.progLen = s.progLen)
    (hat : NestedAt s t.pc) (hls : t.ls = enclosingLoops s t.pc)
    (hw : t.status = .waitInput → fetch t = .op .inp) : BalancedInv t :=
  have hat := hat.congr hm hn
  { loaded := hat.loaded
    balanced := hat.balanced
    nestedToPc := hat.nested
    pcBound := hat.bound
    waiting := hw
    stack := by rw [enclosingLoops_congr hm hn]; exact hls }

/-- The nesting invariant is the one for balanced programs, in a properly nested program. -/
theorem nestingInv_iff {s : State} : NestingInv s ↔ BalancedInv s ∧ ProperlyNested s := by
  constructor
  · intro h
    have hpc := h.pcBound
    exact ⟨{ loaded := h.loaded, balanced := h.nested.2, pcBound := hpc, waiting := h.waiting, stack := h.stack
             nestedToPc := fun k hk => h.nested.1 k (by omega) }, h.nested⟩
  · rintro ⟨h, hnested⟩
    exact { loaded := h.loaded, nested := hnested, pcBound := h.pcBound, waiting := h.waiting, stack := h.stack }

/-! ## Moves of `PC` and `LS` -/

/-- A fetched instruction that is not loop-open does not stand in a loop-open cell. -/
theorem cellIs_openCell_of_fetch {s : State} {i : Instr} (hf : fetch s = .op i) (hi : i ≠ .lopen) :
    cellIs s openCell s.pc = false := by
  by_contra hcell
  rw [Bool.not_eq_false] at hcell
  exact hi (Fetched.op.inj (hf.symm.trans (fetch_of_cellIs_openCell hcell)))

/-- A fetched instruction that is not loop-close does not stand in a loop-close cell. -/
theorem cellIs_closeCell_of_fetch {s : State} {i : Instr} (hf : fetch s = .op i) (hi : i ≠ .lclose) :
    cellIs s closeCell s.pc = false := by
  by_contra hcell
  rw [Bool.not_eq_false, cellIs, beq_iff_eq] at hcell
  have hclose : fetch s = .op .lclose := fetch_eq_op.2 ⟨closeCell, hcell, decodeCell_closeCell⟩
  exact hi (Fetched.op.inj (hf.symm.trans hclose))

/-- The cell of a fetched loop-open. -/
theorem cellIs_openCell_of_lopen {s : State} (hf : fetch s = .op .lopen) : cellIs s openCell s.pc = true := by
  simp [cellIs, fetchCell_of_lopen hf]

/-- The cell of a fetched loop-close. -/
theorem cellIs_closeCell_of_lclose {s : State} (hf : fetch s = .op .lclose) :
    cellIs s closeCell s.pc = true := by
  simp [cellIs, fetchCell_of_lclose hf]

/-- After every move the program is nested up to `PC` and `LS` lists the loops that enclose `PC`: an entry adds its
loop, an exit and a jump back take off the last one, and a skip comes out at the level it went in. -/
theorem BalancedInv.controlMove {s t : State} (h : BalancedInv s) (hmove : ControlMove s t) :
    NestedAt s t.pc ∧ t.ls = enclosingLoops s t.pc := by
  have hat := h.nestedAt
  have hstack := h.stack
  cases hmove with
  | kept hpc hls =>
    rw [hpc, hls]
    exact ⟨hat, hstack⟩
  | passed hf hpc hls =>
    rw [hpc, hls, hstack]
    obtain ⟨i, hf, ho, hc⟩ : ∃ i, fetch s = .op i ∧ i ≠ .lopen ∧ i ≠ .lclose := by
      rcases hf with hs | hf
      · exact ⟨.inp, h.waiting hs, by decide, by decide⟩
      · exact hf
    obtain ⟨hat', henc⟩ := hat.enclosing_other (pc_lt_of_fetch hf) (cellIs_openCell_of_fetch hf ho)
      (cellIs_closeCell_of_fetch hf hc)
    exact ⟨hat', henc.symm⟩
  | skipped m hf hx hm hpc hls =>
    rw [hpc, hls, hstack]
    obtain ⟨-, hat', henc⟩ := hat.enclosing_skip (cellIs_openCell_of_lopen hf) (pc_lt_of_fetch hf) hm
    exact ⟨hat', henc.symm⟩
  | entered hf hx hl hpc hls =>
    rw [hpc, hls, hstack]
    obtain ⟨hat', henc⟩ := hat.enclosing_open (cellIs_openCell_of_lopen hf) (pc_lt_of_fetch hf)
    exact ⟨hat', henc.symm⟩
  | exited p hf hpc hls =>
    rw [hpc]
    obtain ⟨hat', henc⟩ := hat.enclosing_close (cellIs_closeCell_of_lclose hf) (pc_lt_of_fetch hf)
      (hstack.symm.trans hls)
    exact ⟨hat', henc.symm⟩
  | jumpedBack hf hx hls =>
    obtain ⟨hat', henc⟩ := hat.enclosing_back (hstack.symm.trans hls)
    exact ⟨hat', henc.symm⟩

/-! ## Steps, host actions and the load -/

/-- A step keeps the invariant of a balanced program. -/
theorem BalancedInv.step {s t : State} (h : BalancedInv s) (hstep : step s = .next t) : BalancedInv t := by
  have heffect := step_effect hstep
  obtain ⟨hmem, hlen, -⟩ := heffect.program
  obtain ⟨hat, hls⟩ := h.controlMove heffect.controlMove
  exact hat.balancedInv hmem hlen hls (heffect.waiting h.waiting)

/-- An action of the host other than a load keeps the memory and the program length. -/
theorem hostStep_sameProgram {act : HostAction} {s t : State} (hact : ∀ src, act ≠ .load src)
    (h : hostStep act s = .next t) : t.imem = s.imem ∧ t.progLen = s.progLen := by
  rcases hostStep_cases h with
    ⟨-, rfl⟩ | ⟨src, hload, -⟩ | ⟨a, -, -, -, rfl⟩ | ⟨-, -, rfl⟩ | ⟨-, -, rfl⟩ | rfl
  · exact ⟨rfl, rfl⟩
  · exact absurd hload (hact src)
  all_goals exact ⟨rfl, rfl⟩

/-- A reset begins again before the first cell, with an empty stack. -/
theorem BalancedInv.hostReset {s : State} (h : BalancedInv s) : BalancedInv (hostReset s) :=
  NestedAt.balancedInv (s := s) rfl rfl (NestedAt.zero h.loaded h.balanced) (enclosingLoops_zero s).symm
    (fun hs => by cases hs)

/-- An action of the host other than a load keeps the invariant of a balanced program. -/
theorem BalancedInv.hostStep {act : HostAction} {s t : State} (h : BalancedInv s)
    (hact : ∀ src, act ≠ .load src) (hstep : hostStep act s = .next t) : BalancedInv t := by
  have hat := h.nestedAt
  rcases hostStep_cases hstep with
    ⟨-, rfl⟩ | ⟨src, hload, -⟩ | ⟨a, -, hs, -, rfl⟩ | ⟨-, -, rfl⟩ | ⟨-, hs, rfl⟩ | rfl
  · exact h.hostReset
  · exact absurd hload (hact src)
  · obtain ⟨hat', hls⟩ := h.controlMove (t := completeInput s a) (.passed (.inl hs) rfl rfl)
    exact NestedAt.balancedInv (s := s) rfl rfl hat' hls (fun hs => by cases hs)
  · exact NestedAt.balancedInv (s := s) rfl rfl hat h.stack (fun hs => by cases hs)
  · exact NestedAt.balancedInv (s := s) rfl rfl hat h.stack h.waiting
  · exact h

/-- A started program has as many loop-opens and loop-closes as the program it was started on. -/
theorem balanced_startCells (s : State) {p : List Instr} (hp : balanced p = true) :
    opensIn (startCells s (p.map encode)) 0 (startCells s (p.map encode)).progLen =
      closesIn (startCells s (p.map encode)) 0 (startCells s (p.map encode)).progLen := by
  rw [startCells_progLen, List.length_map, opensIn_startCells s p le_rfl, closesIn_startCells s p le_rfl,
    List.take_length]
  simpa [balanced] using hp

/-- A started program is properly nested where the program it was started on is. -/
theorem properlyNested_startCells (s : State) {p : List Instr} (hp : NestedProgram p) :
    ProperlyNested (startCells s (p.map encode)) := by
  obtain ⟨hbalanced, hpre⟩ := hp
  refine ⟨fun k hk => ?_, balanced_startCells s hbalanced⟩
  rw [startCells_progLen, List.length_map] at hk
  rw [opensIn_startCells s p (by omega), closesIn_startCells s p (by omega)]
  exact hpre k hk

/-- A load and start from `Idle` of a program balanced in count begins with the invariant. -/
theorem balancedInv_startCells {s : State} (h : Inv s) (hs : s.status = .idle) {p : List Instr}
    (hp : balanced p = true) : BalancedInv (startCells s (p.map encode)) := by
  obtain ⟨-, -, hpc, hls, -, -⟩ := h.fresh hs
  have hat := NestedAt.zero (loaded_startCells s (p.map encode)) (balanced_startCells s hp)
  refine NestedAt.balancedInv rfl rfl ?_ ?_ (fun hs => by cases hs)
  · rw [startCells_pc, hpc]
    exact hat
  · rw [startCells_pc, hpc, startCells_ls, hls, enclosingLoops_zero]

/-- Settles O58: by the moves of `PC` and `LS` for a step, and for the load because the Sanitizer compares the
totals. -/
theorem stepKeepsBalancedInvariant : Obligations.StepKeepsBalancedInvariant := by
  refine ⟨fun s t h hstep => h.step hstep, fun act s t hact h hstep => h.hostStep hact hstep, ?_⟩
  intro s src p h hs hp hfits
  exact ⟨_, hostStep_load_of_program hs hp hfits, balancedInv_startCells h hs (balanced_of_sanitize hp)⟩

/-- Settles O56: the invariant of balanced programs is kept, and the program, which stays, is properly nested. -/
theorem stepKeepsNestingInvariant : Obligations.StepKeepsNestingInvariant := by
  refine ⟨fun s t h hstep => ?_, fun act s t hact h hstep => ?_, fun s src p h hs hp hnested hfits => ?_⟩
  · obtain ⟨hbal, hnested⟩ := nestingInv_iff.1 h
    obtain ⟨hmem, hlen, -⟩ := (step_effect hstep).program
    exact nestingInv_iff.2 ⟨hbal.step hstep, properlyNested_congr hmem hlen hnested⟩
  · obtain ⟨hbal, hnested⟩ := nestingInv_iff.1 h
    obtain ⟨hmem, hlen⟩ := hostStep_sameProgram hact hstep
    exact nestingInv_iff.2 ⟨hbal.hostStep hact hstep, properlyNested_congr hmem hlen hnested⟩
  · exact ⟨_, hostStep_load_of_program hs hp hfits, nestingInv_iff.2
      ⟨balancedInv_startCells h hs hnested.1, properlyNested_startCells s hnested⟩⟩

/-! ## The faults of the loop instructions -/

/-- The depth of the stack is the nesting level of `PC` (10_state.md R16). -/
theorem BalancedInv.depth {s : State} (h : BalancedInv s) :
    s.ls.length + closesIn s 0 s.pc = opensIn s 0 s.pc := by
  have hlength := h.nestedAt.length_enclosing
  rw [← h.stack] at hlength
  unfold level at hlength
  omega

/-- In a program balanced in count no scan overruns: a loop-open `PC` comes to has its match (43_control.md R111). -/
theorem BalancedInv.matchOf_ne_overrun {s : State} (h : BalancedInv s) (hf : fetch s = .op .lopen) :
    matchOf s s.pc ≠ .overrun := by
  obtain ⟨m, hm⟩ := h.nestedAt.match_exists le_rfl (cellIs_openCell_of_lopen hf)
  simp [hm]

/-- In a properly nested program a loop-close finds an entry: the level after it is not negative. -/
theorem NestingInv.ls_ne_nil {s : State} (h : NestingInv s) (hf : fetch s = .op .lclose) : s.ls ≠ [] := by
  intro hempty
  have hdepth := (nestingInv_iff.1 h).1.depth
  have hlevel := level_close (cellIs_closeCell_of_lclose hf)
  have hnext := h.nested.1 (s.pc + 1) (Nat.succ_lt_succ (pc_lt_of_fetch hf))
  rw [hempty, List.length_nil] at hdepth
  unfold level at hlevel
  omega

/-- With room for the deepest nesting of the program the stack is not full at a loop-open: the level after it is one
above the depth. -/
theorem BalancedInv.not_full {s : State} (h : BalancedInv s) (hf : fetch s = .op .lopen)
    (hroom : ∀ d, s.params.lsDepth = some d → ∀ k, k ≤ s.progLen → opensIn s 0 k ≤ closesIn s 0 k + d) :
    s.params.lsDepth ≠ some s.ls.length := by
  intro hfull
  have hdepth := h.depth
  have hlevel := level_open (cellIs_openCell_of_lopen hf)
  have hnext := hroom _ hfull (s.pc + 1) (pc_lt_of_fetch hf)
  unfold level at hlevel
  omega

/-- Settles O57: a `CAUSE` that a step has no reason to raise was there before, and the reasons of the three bracket
faults are excluded. -/
theorem nestedProgramsHaveNoLoopFault : Obligations.NestedProgramsHaveNoLoopFault := by
  intro s t h hstep
  have hbal := (nestingInv_iff.1 h).1
  refine ⟨hbal.depth, fun hc => cause_eq_of_not_faultReason hstep hc ?_,
    fun hc => cause_eq_of_not_faultReason hstep hc ?_,
    fun hroom hc => cause_eq_of_not_faultReason hstep hc ?_⟩
  · rintro ⟨⟩
    case loopStackUnderflow hf hl => exact h.ls_ne_nil hf hl
  · rintro ⟨⟩
    case loopScanOverrun hf hm => exact hbal.matchOf_ne_overrun hf hm
  · rintro ⟨⟩
    case loopStackOverflow hf hl => exact hbal.not_full hf hroom hl

end Sys2Proof.Machine
end

section
/-! PROOFS. The runs of the engine and the host (00_scope.md R6, 70_reset_and_hazards.md R154): one invariant of every
reachable state, with the induction over runs done once, and the faults it excludes (60_exceptions.md R125, R127,
R128). -/

namespace Sys2Proof.Machine

/-! ## The program a run holds -/

/-- What the engine may assume of a program depends on the memory and the program length alone. -/
theorem ProgramOk.congr {s t : State} (hm : t.imem = s.imem) (hn : t.progLen = s.progLen)
    (h : ProgramOk s) : ProgramOk t where
  decodes := fun a ha => by
    rw [decodesAt, fetchCell_congr hm hn]
    exact h.decodes a (hn ▸ ha)
  balanced := by rw [opensIn_congr hm hn, closesIn_congr hm hn, hn]; exact h.balanced

/-- A cell that holds an instruction's code is one of the 17 opcodes. -/
theorem decodesAt_of_fetchCell {s : State} {a : Nat} {i : Instr} (h : fetchCell s a = some (encode i)) :
    decodesAt s a = true := by
  simp only [decodesAt, h, decodeCell_encode]

/-- A program the Sanitizer answers is one the engine may assume (30_encoding.md R64). -/
theorem programOk_startCells (s : State) {p : List Instr} (hp : balanced p = true) :
    ProgramOk (startCells s (p.map encode)) where
  decodes := fun a ha => by
    have hlt : a < p.length := by simpa using ha
    have hcell : fetchCell (startCells s (p.map encode)) a = some (encode p[a]) := by
      rw [fetchCell_startCells, List.getElem?_map, List.getElem?_eq_getElem hlt]
      rfl
    exact decodesAt_of_fetchCell hcell
  balanced := balanced_startCells s hp

/-- A program the engine may assume has no Invalid cell to fetch. -/
theorem ProgramOk.fetch_ne_invalid {s : State} (h : ProgramOk s) : fetch s ≠ .invalid := by
  intro hf
  obtain ⟨b, hb, hd⟩ := fetch_eq_invalid.1 hf
  have hdecodes := h.decodes s.pc (fetchCell_eq_some.1 hb).1
  simp [decodesAt, hb, hd] at hdecodes

/-! ## The causes a run excludes -/

/-- The causes no run from reset comes to. -/
structure CausesExcluded (s : State) : Prop where
  illegalOpcode : s.cause ≠ .illegalOpcode
  loopScanOverrun : s.cause ≠ .loopScanOverrun
  loopStackOverflow : s.params.lsDepth = none → s.cause ≠ .loopStackOverflow

/-- No cause, and the cause the loader writes, are not among them. -/
theorem CausesExcluded.of_loaderCause {s : State} (hc : s.cause = .none ∨ s.cause = .mismatchedBrackets) :
    CausesExcluded s := by
  rcases hc with hc | hc <;> exact ⟨by simp [hc], by simp [hc], by simp [hc]⟩

/-- A step raises none of these causes in a program the engine may assume. -/
theorem CausesExcluded.step {s t : State} (h : CausesExcluded s) (hprog : ProgramOk s)
    (hbal : BalancedInv s) (hstep : step s = .next t) : CausesExcluded t := by
  obtain ⟨-, -, hparams⟩ := (step_effect hstep).program
  refine ⟨fun hc => h.illegalOpcode (cause_eq_of_not_faultReason hstep hc ?_),
    fun hc => h.loopScanOverrun (cause_eq_of_not_faultReason hstep hc ?_),
    fun hd hc => h.loopStackOverflow (hparams ▸ hd) (cause_eq_of_not_faultReason hstep hc ?_)⟩
  · rintro ⟨⟩
    case illegalOpcode hf => exact hprog.fetch_ne_invalid hf
  · rintro ⟨⟩
    case loopScanOverrun hf hm => exact hbal.matchOf_ne_overrun hf hm
  · rintro ⟨⟩
    case loopStackOverflow hf hl => simp [← hparams, hd] at hl

/-- An action of the host keeps `CAUSE` and the parameters, or writes no cause but the loader's. -/
theorem CausesExcluded.hostStep {act : HostAction} {s t : State} (h : CausesExcluded s)
    (hstep : hostStep act s = .next t) : CausesExcluded t := by
  rcases hostStep_cases hstep with
    ⟨-, rfl⟩ | ⟨src, -, -, hload⟩ | ⟨a, -, -, -, rfl⟩ | ⟨-, -, rfl⟩ | ⟨-, -, rfl⟩ | rfl
  · exact .of_loaderCause (.inl rfl)
  · rcases loadAndStart_cases hload with ⟨-, rfl⟩ | ⟨p, -, -, rfl⟩
    · exact .of_loaderCause (.inr rfl)
    · exact ⟨h.illegalOpcode, h.loopScanOverrun, h.loopStackOverflow⟩
  all_goals exact ⟨h.illegalOpcode, h.loopScanOverrun, h.loopStackOverflow⟩

/-! ## The invariant of runs -/

/-- What holds of every reachable state. -/
structure RunInv (s : State) : Prop where
  inv : Inv s
  program : ProgramOk s
  balanced : BalancedInv s
  causes : CausesExcluded s

/-- At reset nothing is loaded, and the empty program is one the engine may assume. -/
theorem runInv_reset {p : Params} (hp : p.wf = true) : RunInv { State.reset with params := p } := by
  have hinv := resetMeetsInvariant p hp
  exact
    { inv := hinv
      program := { decodes := fun a ha => absurd ha (Nat.not_lt_zero a), balanced := rfl }
      balanced := NestedAt.balancedInv rfl rfl (NestedAt.zero hinv.loaded rfl) rfl (fun hs => by cases hs)
      causes := .of_loaderCause (.inl rfl) }

/-- A step of the engine keeps the invariant of runs. -/
theorem RunInv.step {s t : State} (h : RunInv s) (hstep : step s = .next t) : RunInv t := by
  obtain ⟨hmem, hlen, -⟩ := (step_effect hstep).program
  exact
    { inv := stepKeepsInvariant s t h.inv hstep
      program := h.program.congr hmem hlen
      balanced := h.balanced.step hstep
      causes := h.causes.step h.program h.balanced hstep }

/-- A load that gives a next state is a load and start from `Idle` (70_reset_and_hazards.md R154). -/
theorem loadAndStart_of_hostStep_load {s t : State} {src : List Char} (h : hostStep (.load src) s = .next t) :
    s.status = .idle ∧ loadAndStart s src = .next t := by
  simp only [hostStep] at h
  split at h
  · rename_i hs
    exact ⟨hs, h⟩
  · cases h

/-- A rejected load leaves the program; a program that the Sanitizer accepted is one the engine may assume, and the
invariant of balanced programs begins with it. -/
theorem RunInv.load {s t : State} {src : List Char} (h : RunInv s)
    (hstep : hostStep (.load src) s = .next t) : ProgramOk t ∧ BalancedInv t := by
  obtain ⟨hs, hload⟩ := loadAndStart_of_hostStep_load hstep
  rcases loadAndStart_cases hload with ⟨-, rfl⟩ | ⟨p, hp, -, rfl⟩
  · exact ⟨ProgramOk.congr (s := s) rfl rfl h.program,
      NestedAt.balancedInv (s := s) rfl rfl h.balanced.nestedAt h.balanced.stack (fun hs => by cases hs)⟩
  · have hbalanced := balanced_of_sanitize hp
    exact ⟨programOk_startCells s hbalanced, balancedInv_startCells h.inv hs hbalanced⟩

/-- An action of the host keeps the invariant of runs. -/
theorem RunInv.hostStep {act : HostAction} {s t : State} (h : RunInv s) (hstep : hostStep act s = .next t) :
    RunInv t := by
  have hinv := hostKeepsInvariant act s t h.inv hstep
  have hcauses := h.causes.hostStep hstep
  by_cases hact : ∃ src, act = .load src
  · obtain ⟨src, rfl⟩ := hact
    obtain ⟨hprogram, hbalanced⟩ := h.load hstep
    exact ⟨hinv, hprogram, hbalanced, hcauses⟩
  · have hother : ∀ src, act ≠ .load src := fun src e => hact ⟨src, e⟩
    obtain ⟨hmem, hlen⟩ := hostStep_sameProgram hother hstep
    exact ⟨hinv, h.program.congr hmem hlen, h.balanced.hostStep hother hstep, hcauses⟩

/-- The induction over runs: the invariant holds of every reachable state. -/
theorem Reachable.runInv {s : State} (h : Reachable s) : RunInv s := by
  induction h with
  | reset p hp => exact runInv_reset hp
  | next s t _ hstep ih =>
    cases hstep with
    | engine _ _ h => exact ih.step h
    | host act _ _ h => exact ih.hostStep h

/-- Settles O59: two parts of the invariant of runs. -/
theorem reachableStatesMeetInvariant : Obligations.ReachableStatesMeetInvariant :=
  fun _ h => ⟨h.runInv.inv, h.runInv.program⟩

/-- Settles O60: the part of the invariant of runs that speaks of `CAUSE`. -/
theorem reachableStatesExcludeFaults : Obligations.ReachableStatesExcludeFaults := by
  intro s h
  obtain ⟨hillegal, hoverrun, hoverflow⟩ := h.runInv.causes
  exact ⟨hillegal, hoverrun, hoverflow⟩

end Sys2Proof.Machine
end

section
/-! PROOFS. Input requests, cancellation, terminal statuses and reset (42_io.md R95 to R98, 60_exceptions.md R124 and
R130, 70_reset_and_hazards.md R150 and R154). -/

namespace Sys2Proof.Machine

/-! ## The completion of an input -/

/-- What an integer answer stores: its residue modulo 256 (42_io.md R97). -/
theorem wrap8_stored_value (i : Int) : wrap8 (Answer.stored (.value i)) = BitVec.ofNat 8 (i % 256).toNat := by
  apply BitVec.eq_of_toNat_eq
  rw [wrap8_toNat, BitVec.toNat_ofNat]
  simp only [Answer.stored]
  omega

/-- A failed answer stores 0 (42_io.md R97). -/
theorem wrap8_stored_failure : wrap8 (Answer.stored .failure) = 0 := rfl

/-- The completion of an input writes `X`, `PC` and `STATUS` (42_io.md R96 step 2). -/
theorem completeInput_eq (s : State) (a : Answer) :
    completeInput s a = { s with x := wrap8 (Answer.stored a), pc := s.pc + 1, status := .running } := rfl

/-- A waiting engine with no cancellation latched takes an answer or waits on. -/
theorem step_of_waitInput {s : State} (hs : s.status = .waitInput) (hc : s.cancelPending = false) :
    step s = .next (awaitInput s) := by
  simp [step, hs, hc]

/-- The answer placed next is the one taken (log 4). -/
theorem awaitInput_of_placed {s : State} {a : Answer} {rest : List Answer} (h : s.answers = a :: rest) :
    awaitInput s = completeInput { s with answers := rest } a := by
  simp only [awaitInput, h]

/-- Settles O21: the placed answer completes the input with what it stores. -/
theorem waitingStepTakesPlacedAnswer : Obligations.WaitingStepTakesPlacedAnswer := by
  intro s rest hs hc
  refine ⟨fun i ha => ?_, fun ha => ?_⟩
  · rw [step_of_waitInput hs hc, awaitInput_of_placed ha, completeInput_eq, wrap8_stored_value]
  · rw [step_of_waitInput hs hc, awaitInput_of_placed ha, completeInput_eq, wrap8_stored_failure]

/-- Where the answer of a waiting step comes from leaves the rest of the placed answers. -/
theorem AnswerFrom.source {s : State} {a : Answer} {ans : List Answer} {d : Nat} (h : AnswerFrom s a ans d) :
    (s.answers.head? = some a ∨ s.answers = [] ∧ Config.hostDraw s.draws = some a) ∧ ans = s.answers.tail := by
  cases h with
  | placed _ ha => exact ⟨.inl (by simp [ha]), by simp [ha]⟩
  | drawn ha hd => exact ⟨.inr ⟨ha, hd⟩, by simp [ha]⟩

/-- Settles O22: by the two things a waiting step can do. -/
theorem waitingStepAnswersOrWaits : Obligations.WaitingStepAnswersOrWaits := by
  intro s hs hc
  refine ⟨awaitInput s, step_of_waitInput hs hc, ?_⟩
  rcases awaitInput_cases s with ⟨a, ans, d, hfrom, hawait⟩ | ⟨hnone, hdraw, hawait⟩
  · obtain ⟨hsource, rfl⟩ := hfrom.source
    rw [hawait]
    exact .inl ⟨a, hsource, fun i hi => hi ▸ wrap8_stored_value i, fun hf => hf ▸ wrap8_stored_failure, rfl⟩
  · rw [hawait]
    exact .inr ⟨hnone, hdraw, rfl⟩

/-! ## Cancellation -/

/-- The host's cancel ends the wait of a `.` at once (60_exceptions.md R124). -/
theorem hostStep_cancel_of_waitInput {s : State} (hs : s.status = .waitInput) :
    hostStep .cancel s = .next (cancelWaiting s) := by
  simp only [hostStep, hostCancel, hs]

/-- The host's cancel is latched while the engine runs (10_state.md R23(c)). -/
theorem hostStep_cancel_of_running {s : State} (hs : s.status = .running) :
    hostStep .cancel s = .next { s with cancelPending := true } := by
  simp only [hostStep, hostCancel, hs]

/-- In any other status the host's cancel has no effect (60_exceptions.md R130). -/
theorem hostStep_cancel_of_atRest {s : State} (hr : s.status ≠ .running) (hw : s.status ≠ .waitInput) :
    hostStep .cancel s = .next s := by
  cases hs : s.status <;> simp_all [hostStep, hostCancel]

/-- An answer in `WaitInput` is the host's answer to the open request (42_io.md R96). -/
theorem hostStep_answer_of_waitInput {s : State} (hs : s.status = .waitInput) (a : Answer) :
    hostStep (.answer a) s = .next (hostAnswer s a) := by
  simp only [hostStep, hs, if_true]

/-- With no cancellation latched the host's answer completes the input. -/
theorem hostAnswer_of_not_cancelPending {s : State} (hc : s.cancelPending = false) (a : Answer) :
    hostAnswer s a = completeInput s a := by
  simp [hostAnswer, hc]

/-- Settles O20: the request, the answer's completion by what it stores, and the cancellation, after which no request
is open. -/
theorem inpRequestThenAnswer : Obligations.InpRequestThenAnswer := by
  refine ⟨decodeCell_encode .inp, fun s => rfl, fun s i hs hc => ?_, fun s hs hc => ?_, fun s hs => ?_⟩
  · rw [hostStep_answer_of_waitInput hs, hostAnswer_of_not_cancelPending hc, completeInput_eq,
      wrap8_stored_value]
  · rw [hostStep_answer_of_waitInput hs, hostAnswer_of_not_cancelPending hc, completeInput_eq,
      wrap8_stored_failure]
  · refine ⟨cancelWaiting s, hostStep_cancel_of_waitInput hs, cancelWaiting_cancelled s, fun a => ?_⟩
    exact hostActionsOutsideTheTable.2.2 (cancelWaiting s) a (by simp)

/-- Settles O40: the latch set while running is taken by the next step, and one met in a wait goes before any
answer. -/
theorem cancellationIsTakenAtTheBoundary : Obligations.CancellationIsTakenAtTheBoundary := by
  refine ⟨fun s hs => ?_, fun s hs => ?_, fun s a hs hc => ?_, fun s hr hw => ?_⟩
  · refine ⟨_, hostStep_cancel_of_running hs, ?_⟩
    simp [step, hs, takeCancel]
  · exact ⟨_, hostStep_cancel_of_waitInput hs, cancelWaiting_cancelled s⟩
  · refine ⟨cancelWaiting s, ?_, ?_, cancelWaiting_cancelled s⟩
    · simp [step, hs, hc]
    · rw [hostStep_answer_of_waitInput hs, hostAnswer, if_pos hc]
  · exact hostStep_cancel_of_atRest hr hw

/-! ## Terminal statuses, reset and the codes -/

/-- A terminal status is none of the three in which something may happen (10_state.md R17). -/
theorem Status.terminal_ne {st : Status} (h : st.terminal = true) :
    st ≠ .idle ∧ st ≠ .running ∧ st ≠ .waitInput := by
  cases st <;> simp_all [Status.terminal]

/-- Settles O41: outside `Idle`, `Running` and `WaitInput` the step answers the same state, and only the host's reset
is left of the cases of the host's actions. -/
theorem terminalStatusIsAbsorbing : Obligations.TerminalStatusIsAbsorbing := by
  intro s hterminal
  obtain ⟨hidle, hrunning, hwait⟩ := Status.terminal_ne hterminal
  refine ⟨?_, fun act t hact hstep => ?_⟩
  · cases hs : s.status <;> simp_all [step]
  · rcases hostStep_cases hstep with
      ⟨hreset, -⟩ | ⟨src, -, hs, -⟩ | ⟨a, -, hs, -, -⟩ | ⟨hs, -, -⟩ | ⟨-, hs, -⟩ | hsame
    · exact absurd hreset hact
    · exact absurd hs hidle
    · exact absurd hs hwait
    · exact absurd hs hwait
    · exact absurd hs hrunning
    · exact hsame

/-- Settles O42: the codes are the constructors' numbers, and there are seven causes. -/
theorem statusAndCauseCodes : Obligations.StatusAndCauseCodes := by
  refine ⟨rfl, rfl, rfl, rfl, fun c => ?_⟩
  cases c <;> decide

/-- Settles O45: the fields of `State.reset` as written. -/
theorem resetState : Obligations.ResetState :=
  ⟨rfl, rfl, rfl, rfl, rfl, rfl, rfl, rfl, rfl⟩

/-- Settles O46: the host's reset takes every field it names from `State.reset` or leaves it. -/
theorem hostResetFromAnyState : Obligations.HostResetFromAnyState :=
  fun s => ⟨hostReset s, rfl, rfl, rfl, rfl, rfl, rfl, rfl, rfl, rfl, rfl, rfl⟩

end Sys2Proof.Machine
end

section
/-! PROOFS. What an instruction reads (10_state.md sections 4 and 5, 40_alu.md section 1): from two states it cannot
tell apart, each instruction has outcomes it cannot tell apart. -/

namespace Sys2Proof.Machine

/-- The next states `s'` of `s` and `t'` of `t` are alike: the same program state, the same events appended, and
`STATUS` and `CAUSE` each kept in both or equal in both. -/
structure NextAlike (s t s' t' : State) : Prop where
  same : SameForProgram s' t'
  out : ∀ es, s'.out = s.out ++ es → t'.out = t.out ++ es
  status : s'.status = s.status ∧ t'.status = t.status ∨ s'.status = t'.status
  cause : s'.cause = s.cause ∧ t'.cause = t.cause ∨ s'.cause = t'.cause

/-- The outcomes of an instruction in `s` and in `t` are alike. -/
inductive OutcomesAlike (s t : State) :
    Host.Outcome State Fault Refusal → Host.Outcome State Fault Refusal → Prop where
  | next (s' t' : State) (h : NextAlike s t s' t') : OutcomesAlike s t (.next s') (.next t')
  | fault (r : Fault) : OutcomesAlike s t (.fault r) (.fault r)

/-- Next states that keep `OUT`, `STATUS` and `CAUSE`. -/
theorem NextAlike.of_kept {s t s' t' : State} (h : SameForProgram s' t')
    (hs : s'.out = s.out ∧ s'.status = s.status ∧ s'.cause = s.cause)
    (ht : t'.out = t.out ∧ t'.status = t.status ∧ t'.cause = t.cause) : NextAlike s t s' t' := by
  obtain ⟨hso, hss, hsc⟩ := hs
  obtain ⟨hto, hts, htc⟩ := ht
  refine ⟨h, fun es he => ?_, .inl ⟨hss, hts⟩, .inl ⟨hsc, htc⟩⟩
  obtain rfl : es = [] := by simpa [hso] using he
  simp [hto]

section
variable {s t : State} (h : SameForProgram s t)
include h

/-- The operands are read from `X` and `Y`. -/
theorem SameForProgram.opX_eq : opX t = opX s := by simp only [opX, h.x]

/-- The operands are read from `X` and `Y`. -/
theorem SameForProgram.opY_eq : opY t = opY s := by simp only [opY, h.y]

/-- Retiring the same result. -/
theorem SameForProgram.retireX (r : Int) : OutcomesAlike s t (retireX s r) (retireX t r) :=
  .next _ _ (.of_kept ⟨rfl, h.y, congrArg (· + 1) h.pc, h.ls, h.imem, h.progLen, h.params⟩
    ⟨rfl, rfl, rfl⟩ ⟨rfl, rfl, rfl⟩)

/-- Raising the same cause. -/
theorem SameForProgram.raise (c : Cause) : OutcomesAlike s t (raise c s) (raise c t) :=
  .next _ _
    { same := ⟨h.x, h.y, h.pc, h.ls, h.imem, h.progLen, h.params⟩
      out := fun es he => by
        obtain rfl : es = [] := by simpa using he
        simp
      status := .inr rfl
      cause := .inr rfl }

/-- The guard of a division reads `Y`. -/
theorem SameForProgram.retireDivided (r : Int) :
    OutcomesAlike s t (retireDivided s r) (retireDivided t r) := by
  unfold Machine.retireDivided
  rw [h.y]
  split
  · exact h.raise _
  · exact h.retireX r

/-- Emitting the same event. -/
theorem SameForProgram.emit (k : EventKind) (v : Byte) :
    OutcomesAlike s t (.next (s.emit k v).advance) (.next (t.emit k v).advance) :=
  .next _ _
    { same := ⟨h.x, h.y, congrArg (· + 1) h.pc, h.ls, h.imem, h.progLen, h.params⟩
      out := fun es he => by
        obtain rfl : es = [{ kind := k, v := v }] := by simpa using he.symm
        rfl
      status := .inl ⟨rfl, rfl⟩
      cause := .inl ⟨rfl, rfl⟩ }

/-- Writing `STATUS`, and no part of the state that is read. -/
theorem SameForProgram.setStatus {s' t' : State} (st : Status)
    (hs : s' = { s with status := st, inCount := s'.inCount })
    (ht : t' = { t with status := st, inCount := t'.inCount }) :
    OutcomesAlike s t (.next s') (.next t') := by
  rw [hs, ht]
  exact .next _ _
    { same := ⟨h.x, h.y, h.pc, h.ls, h.imem, h.progLen, h.params⟩
      out := fun es he => by
        obtain rfl : es = [] := by simpa using he
        simp
      status := .inr rfl
      cause := .inl ⟨rfl, rfl⟩ }

/-- Writing the same `PC` and `LS`, and nothing else. -/
theorem SameForProgram.move {s' t' : State} (hpc : t'.pc = s'.pc) (hls : t'.ls = s'.ls)
    (hs : s' = { s with pc := s'.pc, ls := s'.ls }) (ht : t' = { t with pc := t'.pc, ls := t'.ls }) :
    OutcomesAlike s t (.next s') (.next t') := by
  rw [hs, ht]
  exact .next _ _ (.of_kept ⟨h.x, h.y, hpc, hls, h.imem, h.progLen, h.params⟩ ⟨rfl, rfl, rfl⟩ ⟨rfl, rfl, rfl⟩)

/-- Loop-open reads `X`, the program, `PC` and the depth of the stack. -/
theorem SameForProgram.lopen : OutcomesAlike s t (exec .lopen s) (exec .lopen t) := by
  by_cases hx : s.x = 0
  · have hx' : t.x = 0 := h.x.trans hx
    have hmatch : matchOf t t.pc = matchOf s s.pc := by rw [h.pc, matchOf_congr h.imem h.progLen]
    cases hscan : matchOf s s.pc with
    | found m =>
      rw [exec_lopen_of_found hx hscan, exec_lopen_of_found hx' (hmatch.trans hscan)]
      exact h.move rfl h.ls rfl rfl
    | overrun =>
      rw [exec_lopen_of_overrun hx hscan, exec_lopen_of_overrun hx' (hmatch.trans hscan)]
      exact h.raise _
    | unwritten j =>
      rw [exec_lopen_of_unwritten hx hscan, exec_lopen_of_unwritten hx' (hmatch.trans hscan)]
      exact .fault _
  · have hx' : t.x ≠ 0 := fun e => hx (h.x.symm.trans e)
    by_cases hfull : s.params.lsDepth = some s.ls.length
    · have hfull' : t.params.lsDepth = some t.ls.length := by rw [h.params, h.ls, hfull]
      rw [exec_lopen_of_full hx hfull, exec_lopen_of_full hx' hfull']
      exact h.raise _
    · have hfull' : t.params.lsDepth ≠ some t.ls.length := by rwa [h.params, h.ls]
      rw [exec_lopen_of_room hx hfull, exec_lopen_of_room hx' hfull', h.pc, h.ls]
      exact h.move rfl rfl rfl rfl

/-- Loop-close reads `LS`, `X` and `PC`. -/
theorem SameForProgram.lclose : OutcomesAlike s t (exec .lclose s) (exec .lclose t) := by
  rcases List.eq_nil_or_concat s.ls with hl | ⟨l, p, hl⟩
  · rw [exec_lclose_of_empty hl, exec_lclose_of_empty (h.ls.trans hl)]
    exact h.raise _
  · rw [List.concat_eq_append] at hl
    rw [exec_lclose_of_top hl, exec_lclose_of_top (h.ls.trans hl)]
    exact h.move (by simp only [h.x, h.pc]) rfl rfl rfl

/-- Every instruction has alike outcomes in states it cannot tell apart. -/
theorem SameForProgram.exec (i : Instr) : OutcomesAlike s t (exec i s) (exec i t) := by
  cases i with
  | inc => rw [exec_inc, exec_inc, h.opX_eq]; exact h.retireX _
  | dec => rw [exec_dec, exec_dec, h.opX_eq]; exact h.retireX _
  | zero => exact h.retireX _
  | add => rw [exec_add, exec_add, h.opX_eq, h.opY_eq]; exact h.retireX _
  | sub => rw [exec_sub, exec_sub, h.opX_eq, h.opY_eq]; exact h.retireX _
  | mul => rw [exec_mul, exec_mul, h.opX_eq, h.opY_eq]; exact h.retireX _
  | div => rw [exec_div, exec_div, h.opX_eq, h.opY_eq]; exact h.retireDivided _
  | mod => rw [exec_mod, exec_mod, h.opX_eq, h.opY_eq]; exact h.retireDivided _
  | ldb => rw [exec_ldb, exec_ldb, h.opY_eq]; exact h.retireX _
  | stb =>
    exact .next _ _ (.of_kept ⟨h.x, h.x, congrArg (· + 1) h.pc, h.ls, h.imem, h.progLen, h.params⟩
      ⟨rfl, rfl, rfl⟩ ⟨rfl, rfl, rfl⟩)
  | prd => rw [exec_prd, exec_prd, h.x]; exact h.emit _ _
  | pra => rw [exec_pra, exec_pra, h.x]; exact h.emit _ _
  | dbg => rw [exec_dbg, exec_dbg, h.y]; exact h.emit _ _
  | inp => exact h.setStatus .waitInput rfl rfl
  | halt => exact h.setStatus .haltedExplicit rfl rfl
  | lopen => exact h.lopen
  | lclose => exact h.lclose

end

/-- Settles O44: alike outcomes are both faults with the same reason or both next states that are alike. -/
theorem instructionsReadOnlyProgramState : Obligations.InstructionsReadOnlyProgramState := by
  intro i s t h
  have halike := h.exec i
  refine ⟨fun r hr => ?_, fun s' hs' => ?_⟩
  · rw [hr] at halike
    generalize exec i t = o at halike
    cases halike
    rfl
  · rw [hs'] at halike
    generalize exec i t = o at halike
    cases halike with
    | next _ t' hnext => exact ⟨t', rfl, hnext.same, hnext.out, hnext.status, hnext.cause⟩

end Sys2Proof.Machine
end
